-- ==== Sys2Proof/Word.lean ====
section
/-! DEFINITION. The word types of the SysEx block (00_scope.md rule R11: a byte is 8 bits, every value unsigned). -/

namespace Sys2Proof

/-- A byte, bit 7 most significant (00_scope.md rule R11). -/
abbrev Byte := BitVec 8

/-- A nibble: a cable number, a Code Index Number or half a data byte (rules R11, R60, R69). -/
abbrev Nibble := BitVec 4

/-- A 7-bit clean configuration value (00_scope.md rule R8 (a)). -/
abbrev Id7 := BitVec 7

/-- A storage address as the Storage Service interface carries it, 16 bits (20_memory.md rule R43). -/
abbrev Addr := BitVec 16

/-- One page of the store: 16 bytes, `data[0]` at the lowest address (rules R6, R48). -/
abbrev Page := Vector Byte 16

end Sys2Proof
end

