-- ==== Sys2Proof/Config.lean ====
section
/-! DEFINITION. The parameters of 00_scope.md rules R6 to R9, the messages of the two external interfaces that the
free values range over (20_memory.md rules R43, R49, R52), and the free values themselves.

Every operation of the model takes a `Platform`, so that a claim can be made for every admitted configuration and for
every behaviour of the two neighbours. `Config.platform` is the machine of `step`: the decided values of rule R9, and
an opaque constant wherever the spec gives no value. -/

namespace Sys2Proof

/-- The answer of the Storage Service to a transaction (20_memory.md rules R43, R49). -/
inductive Status where
  | ok
  | fail
  deriving DecidableEq, Repr, Inhabited

/-- The answer of the transport to an outbound write (20_memory.md rule R52). -/
inductive TxStatus where
  | ok
  | error
  deriving DecidableEq, Repr, Inhabited

/-- The three transactions of the Storage Service (20_memory.md rule R43); the length is always 16 (rule R45). -/
inductive StorageRequest where
  | read (addr : Addr)
  | write (addr : Addr) (data : Page)
  | eraseAll
  deriving DecidableEq, Repr

/-- The two admitted pairs of scan advances `(ADV_END2, ADV_END1)` of 00_scope.md rule R9: (4, 4), which the spec
decides (90_conflicts.md C1), and the document's literals (3, 2). -/
inductive ScanAdvance where
  | wholeGroup
  | documentLiteral
  deriving DecidableEq, Repr

/-- `ADV_END2`, the scan advance after an `ENDS_WITH_TWO` group (rules R9, R122). -/
def ScanAdvance.afterEnd2 : ScanAdvance → Nat
  | .wholeGroup => 4
  | .documentLiteral => 3

/-- `ADV_END1`, the scan advance after an `ENDS_WITH_ONE` group (rules R9, R122). -/
def ScanAdvance.afterEnd1 : ScanAdvance → Nat
  | .wholeGroup => 4
  | .documentLiteral => 2

/-- `REPLY_ON_STORAGE_FAIL` of 00_scope.md rule R9: no reply (decided, spec value `NONE`) or `ACK_ANYWAY`. -/
inductive ReplyOnStorageFail where
  | noReply
  | ackAnyway
  deriving DecidableEq, Repr

/-- The parameters of 00_scope.md rules R7 and R9. The seven ids are 7 bits wide, which is rule R8 (a). -/
structure Params where
  manufId : Id7
  cmdDump : Id7
  cmdErase : Id7
  cmdWrite : Id7
  rspDump : Id7
  rspErase : Id7
  rspWrite : Id7
  scanAdvance : ScanAdvance
  txCable : Nibble
  replyOnStorageFail : ReplyOnStorageFail
  erasePattern : Byte
  devselBase : Nat
  deriving DecidableEq, Repr

/-- Rule R8 (b), (c), (d): the command ids and the response ids are pairwise distinct. -/
abbrev Params.Admitted (p : Params) : Prop :=
  [p.cmdDump, p.cmdErase, p.cmdWrite, p.rspDump, p.rspErase, p.rspWrite].Nodup

/-- A configuration together with everything the spec leaves to the two neighbours. Each answer is a function of the
number of answers drawn before it (so that every draw is fresh), of the request, and of the store it meets.

* `storeInitial a`: what the non-volatile store holds at `a` before anything writes it.
* `storageStatus`: the status of a transaction (20_memory.md rule R43: no constraint).
* `freeStoreByte n req m a`: the byte at `a` after a transaction that leaves "any value" there (rules R46, R50).
* `freeReadByte n req m i`: byte `i` of a read whose bytes are unconstrained (rules R43, R46).
* `txStatus`: the transport's answer to an outbound write (rule R52). -/
structure Platform extends Params where
  storeInitial : Nat → Byte
  storageStatus : Nat → StorageRequest → List Host.Cell → Status
  freeStoreByte : Nat → StorageRequest → List Host.Cell → Nat → Byte
  freeReadByte : Nat → StorageRequest → List Host.Cell → Nat → Byte
  txStatus : Nat → List Byte → TxStatus

namespace Config

/-- `GROUP_BYTES` (rule R6). -/
@[simp] abbrev groupBytes : Nat := 4

/-- `CAP`, the capacity of the receive buffer (rule R6; spec decision D25). -/
@[simp] abbrev cap : Nat := 64

/-- `PAGE`, the bytes of one page (rule R6). -/
@[simp] abbrev pageBytes : Nat := 16

/-- `STORE_SIZE`, the bytes of the store (rule R6; spec decision D25). -/
@[simp] abbrev storeSize : Nat := 1024

/-- `SOX`, the start marker (rule R6). -/
abbrev sox : Byte := 0xF0

/-- `EOX`, the end marker (rule R6). -/
abbrev eox : Byte := 0xF7

/-- `CIN_CONT` (rule R6). -/
abbrev cinCont : Nibble := 0x4

/-- `CIN_END1` (rule R6). -/
abbrev cinEnd1 : Nibble := 0x5

/-- `CIN_END2` (rule R6). -/
abbrev cinEnd2 : Nibble := 0x6

/-- `CIN_END3` (rule R6). -/
abbrev cinEnd3 : Nibble := 0x7

/-- `TX_PAD` (rule R6). -/
abbrev txPad : Byte := 0xFF

/-- The two bytes of `ERASE_MAGIC`, in this order (rule R6). -/
abbrev eraseMagic0 : Byte := 0x42

/-- The second byte of `ERASE_MAGIC` (rule R6). -/
abbrev eraseMagic1 : Byte := 0x24

/-- `WRITE_PARAM_MIN`: one page byte and 32 nibble bytes (rule R6). -/
@[simp] abbrev writeParamMin : Nat := 33

/-- `MANUF_ID`: a value the spec does not give (rules R7, R8 (a)). -/
opaque manufId : Id7

/-- The six command and response ids are the images of 0 to 5 under a permutation of the 7-bit values about which
nothing is known: any six pairwise distinct 7-bit values, and nothing else (rules R7, R8; log entry 4). -/
opaque idCode : Equiv.Perm Id7

/-- `ERASE_PATTERN`, OPEN in rule R9 (spec decision D6). -/
opaque erasePattern : Byte

/-- `DEVSEL_BASE`, OPEN in rule R9 (spec decision D7); its width is not given. -/
opaque devselBase : Nat

/-- What the store holds before anything is written (not in the spec; log entry 10). -/
opaque storeInitial : Nat → Byte

/-- The Storage Service's status for the n-th answer (20_memory.md rule R43; log entry 7). -/
opaque storageStatus : Nat → StorageRequest → List Host.Cell → Status

/-- A store byte that the Storage Service leaves at any value (20_memory.md rules R46, R50; log entries 8, 9). -/
opaque freeStoreByte : Nat → StorageRequest → List Host.Cell → Nat → Byte

/-- A byte of a read that the spec leaves unconstrained (20_memory.md rule R46; log entry 9). -/
opaque freeReadByte : Nat → StorageRequest → List Host.Cell → Nat → Byte

/-- The transport's status for an outbound write (20_memory.md rule R52; log entry 12). -/
opaque txStatus : Nat → List Byte → TxStatus

/-- The machine of `step`: the decided values of rule R9 (log entry 5), the open ones opaque. -/
def platform : Platform where
  manufId := manufId
  cmdDump := idCode 0
  cmdErase := idCode 1
  cmdWrite := idCode 2
  rspDump := idCode 3
  rspErase := idCode 4
  rspWrite := idCode 5
  scanAdvance := .wholeGroup
  txCable := 0
  replyOnStorageFail := .noReply
  erasePattern := erasePattern
  devselBase := devselBase
  storeInitial := storeInitial
  storageStatus := storageStatus
  freeStoreByte := freeStoreByte
  freeReadByte := freeReadByte
  txStatus := txStatus

end Config

end Sys2Proof
end

