-- ==== Sys2Proof/Machine/Operands.lean ====
section
/-! DEFINITION. Operand assembly and all the arithmetic of the block (42_command_validator.md rule R156): nibbles,
page addresses, ids and the validator's two tests. -/

namespace Sys2Proof.Machine

/-- `hi(d)`: bits 7:4 of a data byte as a wire byte (30_encoding.md rule R69). -/
def hiNibble (d : Byte) : Byte := (d.extractLsb' 4 4).zeroExtend 8

/-- `lo(d)`: bits 3:0 of a data byte as a wire byte (30_encoding.md rule R69). -/
def loNibble (d : Byte) : Byte := (d.extractLsb' 0 4).zeroExtend 8

/-- `join(n_hi, n_lo) = ((n_hi << 4) | n_lo) mod 256`, with no mask on either operand (30_encoding.md rule R70, spec
decision D14). -/
def joinNibbles (nHi nLo : Byte) : Byte := (nHi <<< 4) ||| nLo

/-- A page as 32 wire bytes: each data byte as its high nibble, then its low nibble (rules R48, R75). -/
def splitPage (data : Page) : List Byte :=
  data.toList.flatMap fun d => [hiNibble d, loNibble d]

/-- `data[i] = join(nibble[2i], nibble[2i+1])` for `i = 0 .. 15` (rules R70, R149); `nibbles` are the bytes after the
page byte of a write request. -/
def joinPage (nibbles : List Byte) : Page :=
  Vector.ofFn fun i : Fin 16 => joinNibbles (nibbles.getD (2 * i.val) 0) (nibbles.getD (2 * i.val + 1) 0)

/-- `addr = page * 16`, held in 16 bits (20_memory.md rule R44). -/
def pageAddress (page : Byte) : Addr := page.zeroExtend 16 * 16

/-- Whether a 16-byte access at this address lies inside the store (20_memory.md rules R46, R50). -/
def inStore (addr : Addr) : Bool := decide (addr.toNat + Config.pageBytes ≤ Config.storeSize)

/-- `device_select = base | ((address & 0x0300) >> 7)` (20_memory.md rule R47): the Storage Service's formula, not used
by the block; `base` has no stated width. -/
def deviceSelect (c : Params) (addr : Addr) : Nat :=
  c.devselBase ||| ((addr.toNat &&& 0x0300) >>> 7)

/-- A configured 7-bit id as the byte it is on the wire (00_scope.md rule R8 (a)). -/
def idByte (v : Id7) : Byte := v.zeroExtend 8

/-- Whether a byte is one of the three configured command ids (42_command_validator.md rule R143). -/
def isCommandId (c : Params) (b : Byte) : Bool :=
  b == idByte c.cmdDump || b == idByte c.cmdErase || b == idByte c.cmdWrite

/-- `V1`: first byte the start marker, last byte the end marker (42_command_validator.md rule R141). -/
def markersOk (m : List Byte) : Bool :=
  m.head? == some Config.sox && m.getLast? == some Config.eox

/-- `V2`: byte 1 is the configured manufacturer id (42_command_validator.md rule R142). -/
def manufOk (c : Params) (m : List Byte) : Bool :=
  m[1]? == some (idByte c.manufId)

end Sys2Proof.Machine
end

