-- ==== Sys2Proof/Machine/Codec.lean ====
section
/-! DEFINITION. The pure half of the SysEx Codec: the reply messages (30_encoding.md rules R75 to R77), their
fragmentation into groups (40_sysex_codec.md rules R90 to R97) and the inverse mapping (rule R100). -/

namespace Sys2Proof.Machine

/-- Header byte of an emitted group, `(TX_CABLE << 4) | cin` (40_sysex_codec.md rule R97). -/
def headerByte (cable cin : Nibble) : Byte := (cable ++ cin : BitVec 8)

/-- `Encode(msg)`, as the byte sequence of its groups (40_sysex_codec.md rule R91; its cases are rules R92 to R96). -/
def encodeGroups (cable : Nibble) : List Byte → List Byte
  | [] => []
  | [a] => [headerByte cable Config.cinEnd1, a, Config.txPad, Config.txPad]
  | [a, b] => [headerByte cable Config.cinEnd2, a, b, Config.txPad]
  | [a, b, d] => [headerByte cable Config.cinEnd3, a, b, d]
  | a :: b :: d :: e :: rest =>
    headerByte cable Config.cinCont :: a :: b :: d :: encodeGroups cable (e :: rest)

/-- The inverse mapping of 40_sysex_codec.md rule R100: how many payload bytes a CIN carries and whether it ends the
message; `none` for a CIN that is not a SysEx group. -/
def inverseShape (cin : Nibble) : Option (Nat × Bool) :=
  if cin = Config.cinCont then some (3, false)
  else if cin = Config.cinEnd3 then some (3, true)
  else if cin = Config.cinEnd2 then some (2, true)
  else if cin = Config.cinEnd1 then some (1, true)
  else none

/-- The payload bytes of a sequence of groups, padding dropped (40_sysex_codec.md rule R100). -/
def groupPayloads : List Byte → List Byte
  | b0 :: b1 :: b2 :: b3 :: rest =>
    ([b1, b2, b3].take (((inverseShape (b0.extractLsb' 0 4)).map Prod.fst).getD 0)) ++ groupPayloads rest
  | _ => []

/-- The dump reply, 37 bytes (30_encoding.md rule R75). The page byte is echoed without a mask. -/
def dumpReply (c : Params) (page : Byte) (data : Page) : List Byte :=
  [Config.sox, idByte c.manufId, idByte c.rspDump, page] ++ splitPage data ++ [Config.eox]

/-- The erase reply, 4 bytes (30_encoding.md rule R76). -/
def eraseReply (c : Params) : List Byte :=
  [Config.sox, idByte c.manufId, idByte c.rspErase, Config.eox]

/-- The write reply, 4 bytes (30_encoding.md rule R77). -/
def writeReply (c : Params) : List Byte :=
  [Config.sox, idByte c.manufId, idByte c.rspWrite, Config.eox]

end Sys2Proof.Machine
end

