-- ==== Sys2Proof/Syntax.lean ====
section
/-! DEFINITION. The operations of the block, one constructor for each row of spec/opcode_table.json. -/

namespace Sys2Proof

/-- One constructor per row of spec/opcode_table.json (30_encoding.md rule R81).

Level 1 keeps every bit of the group (30_encoding.md rule R60), the cable number and the padding bytes too. Level 2
keeps the parameter region `m[3 .. L-2]` of the message (rule R67); `unknown` keeps `m[2 .. L-2]`, which is empty for
the 3-byte message whose command id position holds the end marker. -/
inductive Instr where
  | sxcont (cable : Nibble) (p1 p2 p3 : Byte)
  | sxend1 (cable : Nibble) (p1 pad2 pad3 : Byte)
  | sxend2 (cable : Nibble) (p1 p2 pad3 : Byte)
  | sxend3 (cable : Nibble) (p1 p2 p3 : Byte)
  /-- CIN 0 to 3: the two low CIN bits are kept. -/
  | nonsxLo (cable : Nibble) (cin : BitVec 2) (p1 p2 p3 : Byte)
  /-- CIN 8 to 15: the three low CIN bits are kept. -/
  | nonsxHi (cable : Nibble) (cin : BitVec 3) (p1 p2 p3 : Byte)
  | dumpPage (params : List Byte)
  | eraseAll (params : List Byte)
  | writePage (params : List Byte)
  | unknown (body : List Byte)
  /-- A message that fails the marker or the manufacturer check, whole. -/
  | invalidMsg (msg : List Byte)
  | rspDump (page : Byte) (data : Page)
  | rspErase
  | rspWrite
  | encode (msg : List Byte)
  deriving DecidableEq, Repr

/-- What a completed message decodes to: the five level-2 rows (30_encoding.md rule R81). -/
inductive Message where
  | dumpPage (params : List Byte)
  | eraseAll (params : List Byte)
  | writePage (params : List Byte)
  | unknown (body : List Byte)
  | invalidMsg (msg : List Byte)
  deriving DecidableEq, Repr

/-- A decoded message as the operation it selects. -/
def Message.toInstr : Message → Instr
  | .dumpPage ps => .dumpPage ps
  | .eraseAll ps => .eraseAll ps
  | .writePage ps => .writePage ps
  | .unknown body => .unknown body
  | .invalidMsg m => .invalidMsg m

end Sys2Proof
end

