-- ==== Sys2Proof/WellFormed.lean ====
section
/-! DEFINITION. Which terms of `Instr` are operations of the block under a given configuration. -/

namespace Sys2Proof

/-- Well-formedness. A group is well formed by its types (30_encoding.md rule R65: every word has a meaning). A message
has at most `CAP` bytes (rule R67); `unknown` holds no command id where a command id stands (rule R144); `invalidMsg`
fails one of the two checks (rules R141, R142) and is not empty (rule R140). The outbound rows are well formed by their
types (rules R75 to R77, R90). -/
def Instr.wellFormed (c : Params) : Instr → Bool
  | .sxcont _ _ _ _ => true
  | .sxend1 _ _ _ _ => true
  | .sxend2 _ _ _ _ => true
  | .sxend3 _ _ _ _ => true
  | .nonsxLo _ _ _ _ _ => true
  | .nonsxHi _ _ _ _ _ => true
  | .dumpPage ps => decide (ps.length + 4 ≤ Config.cap)
  | .eraseAll ps => decide (ps.length + 4 ≤ Config.cap)
  | .writePage ps => decide (ps.length + 4 ≤ Config.cap)
  | .unknown body => decide (body.length + 3 ≤ Config.cap) && !(body.head?.any (Machine.isCommandId c))
  | .invalidMsg m =>
    decide (1 ≤ m.length) && decide (m.length ≤ Config.cap) && !(Machine.markersOk m && Machine.manufOk c m)
  | .rspDump _ _ => true
  | .rspErase => true
  | .rspWrite => true
  | .encode _ => true

end Sys2Proof
end

