-- ==== Sys2Proof/Decode.lean ====
section
/-! DEFINITION. The two decoders (30_encoding.md rules R65 and R81) and, after them, the encoder of every row. -/

namespace Sys2Proof

open Machine

/-- Why a byte sequence holds no group. The only rejection: every 4 bytes are a group (30_encoding.md rule R78). -/
inductive DecodeError where
  /-- Fewer than 4 bytes are left (41_reassembler.md rules R111, R126). -/
  | shortGroup
  deriving DecidableEq, Repr

/-- `cin = b0[3:0]` (30_encoding.md rule R60). -/
def cinOf (b0 : Byte) : Nibble := b0.extractLsb' 0 4

/-- `cable = b0[7:4]` (30_encoding.md rule R60). -/
def cableOf (b0 : Byte) : Nibble := b0.extractLsb' 4 4

/-- Decode of one group (30_encoding.md rules R65, R81): on the CIN alone. -/
def decodeGroup (b0 b1 b2 b3 : Byte) : Instr :=
  if cinOf b0 = Config.cinCont then .sxcont (cableOf b0) b1 b2 b3
  else if cinOf b0 = Config.cinEnd1 then .sxend1 (cableOf b0) b1 b2 b3
  else if cinOf b0 = Config.cinEnd2 then .sxend2 (cableOf b0) b1 b2 b3
  else if cinOf b0 = Config.cinEnd3 then .sxend3 (cableOf b0) b1 b2 b3
  else if (cinOf b0).msb then .nonsxHi (cableOf b0) ((cinOf b0).extractLsb' 0 3) b1 b2 b3
  else .nonsxLo (cableOf b0) ((cinOf b0).extractLsb' 0 2) b1 b2 b3

/-- Decode of the group that begins a byte sequence, with the bytes behind it (30_encoding.md rule R66). -/
def decode : List Byte → Except DecodeError (Instr × List Byte)
  | b0 :: b1 :: b2 :: b3 :: rest => .ok (decodeGroup b0 b1 b2 b3, rest)
  | _ => .error .shortGroup

/-- Decode of a completed message: markers, manufacturer id, then byte 2 (42_command_validator.md rules R140 to R143,
30_encoding.md rule R81). `m` is `rx_buf[0 .. L-1]`, so nothing beyond the message is read (rule R146). -/
def decodeMessage (c : Params) (m : List Byte) : Message :=
  if markersOk m && manufOk c m then
    if m[2]? = some (idByte c.cmdDump) then .dumpPage (m.drop 3).dropLast
    else if m[2]? = some (idByte c.cmdErase) then .eraseAll (m.drop 3).dropLast
    else if m[2]? = some (idByte c.cmdWrite) then .writePage (m.drop 3).dropLast
    else .unknown (m.drop 2).dropLast
  else .invalidMsg m

/-- The four bytes of a group word `W = b0 ‖ b1 ‖ b2 ‖ b3` in wire order (00_scope.md rule R11, spec decision D8). -/
def groupWordBytes (w : BitVec 32) : List Byte :=
  [w.extractLsb' 24 8, w.extractLsb' 16 8, w.extractLsb' 8 8, w.extractLsb' 0 8]

/-- The group word of a table row whose low `nbits` bits are `w`. -/
def tableWord (nbits w : Nat) : BitVec 32 := BitVec.ofNat 32 (w % 2 ^ nbits)

/-- The operation the decoder reads from a group word (00_scope.md rule R11). Only a group has a word of fixed bits: the
rows of level 2 are selected by configured ids and the outbound rows are never decoded (log entries 13, 15). -/
def decodeTableWord (nbits w : Nat) : Option Instr :=
  if nbits ≤ 32 then
    match decode (groupWordBytes (tableWord nbits w)) with
    | .ok (i, _) => some i
    | .error _ => none
  else none

/-! The encoder: the words of each row, written from the formats `G4` (rule R60) and `SX` (rule R67). -/

/-- A group from its fields (30_encoding.md rule R60). -/
def groupBytes (cable cin : Nibble) (p1 p2 p3 : Byte) : List Byte :=
  [headerByte cable cin, p1, p2, p3]

/-- A message from its command id and parameter region (30_encoding.md rule R67). -/
def messageBytes (c : Params) (body : List Byte) : List Byte :=
  Config.sox :: idByte c.manufId :: body ++ [Config.eox]

/-- The bytes of an operation: a group for level 1, a message for level 2 and for the replies, and for ENCODE the
groups it emits. -/
def encode (c : Params) : Instr → List Byte
  | .sxcont cable p1 p2 p3 => groupBytes cable Config.cinCont p1 p2 p3
  | .sxend1 cable p1 pad2 pad3 => groupBytes cable Config.cinEnd1 p1 pad2 pad3
  | .sxend2 cable p1 p2 pad3 => groupBytes cable Config.cinEnd2 p1 p2 pad3
  | .sxend3 cable p1 p2 p3 => groupBytes cable Config.cinEnd3 p1 p2 p3
  | .nonsxLo cable cin p1 p2 p3 => groupBytes cable (cin.zeroExtend 4) p1 p2 p3
  | .nonsxHi cable cin p1 p2 p3 => groupBytes cable ((1 : BitVec 1) ++ cin : BitVec 4) p1 p2 p3
  | .dumpPage ps => messageBytes c (idByte c.cmdDump :: ps)
  | .eraseAll ps => messageBytes c (idByte c.cmdErase :: ps)
  | .writePage ps => messageBytes c (idByte c.cmdWrite :: ps)
  | .unknown body => messageBytes c body
  | .invalidMsg m => m
  | .rspDump page data => dumpReply c page data
  | .rspErase => eraseReply c
  | .rspWrite => writeReply c
  | .encode msg => encodeGroups c.txCable msg

end Sys2Proof
end

