-- ==== Sys2Proof/Machine/State.lean ====
section
/-! DEFINITION. The state of the block and of what the closed model holds of its two neighbours (10_state.md rules R20
to R26, 20_memory.md rules R42, R50), the reasons a step can stop, and the state after reset (10_state.md rule R31). -/

namespace Sys2Proof.Machine

/-- The eight named silent outcomes of 60_exceptions.md rule R181, in its order. They are labels of the model (spec
decision D22): nothing on any interface shows them. -/
inductive AbortReason where
  | framingCin
  | overflow
  | badMarkers
  | badManuf
  | unknownCmd
  | badMagic
  | shortParams
  | storageFail
  deriving DecidableEq, Repr

/-- What the model records of a step, in the order of 20_memory.md rule R53 (log entry 11). -/
inductive Event where
  /-- `Dispatch(L)` began, on this message `rx_buf[0 .. L-1]` (42_command_validator.md rule R140). -/
  | dispatch (msg : List Byte)
  /-- A Storage Service transaction and its answer (20_memory.md rule R43). -/
  | storage (req : StorageRequest) (status : Status)
  /-- One outbound write and the transport's answer (20_memory.md rule R52). -/
  | txWrite (bytes : List Byte) (status : TxStatus)
  /-- A silent outcome (60_exceptions.md rule R181). -/
  | abort (reason : AbortReason)
  deriving DecidableEq, Repr

/-- The store: cells in strictly rising address order, none equal to what an unlisted address reads as. -/
abbrev Memory := List Host.Cell

/-- The state of the closed machine. -/
structure State where
  /-- `rx_buf`, the 64-byte SysEx receive buffer (10_state.md rule R21). -/
  rxBuf : Vector Byte 64
  /-- `cursor`, the write cursor, 0 to 64 (10_state.md rule R22). -/
  cursor : Nat
  /-- `pkt`, the inbound packet in progress; its length is `len` (10_state.md rule R26). -/
  pkt : List Byte
  /-- `pos`, the scan position in `pkt` (10_state.md rule R28). -/
  pos : Nat
  /-- The packets the transport has still to deliver, next one first (20_memory.md rule R51; log entry 2). -/
  pending : List (List Byte)
  /-- The non-volatile store of the Storage Service (20_memory.md rules R42, R50). -/
  store : Memory
  /-- The model's own: how many answers the two neighbours have given (log entry 7). -/
  draws : Nat
  /-- The model's own: what was launched at the interfaces and every silent outcome, oldest first (log entry 11). -/
  trace : List Event
  deriving DecidableEq, Repr

/-- The block cannot fault: "it must never panic on malformed input" (60_exceptions.md rules R182, R186), so no meaning
raises a fault and this type has no constructor. Safe: a transaction that never returns is assumed away (log entry 7). -/
inductive Fault where
  deriving DecidableEq, Repr

/-- Why the model gives no next state. -/
inductive Refusal where
  /-- An operation that has no meaning yet; raised by an arm of `exec` only, and by none now. Safe. -/
  | notModelled (mnemonic : String)
  /-- A packet offered from outside while one is in progress; raised by `deliver` only (70_reset_and_hazards.md rule
  R203, 93_implementation_defined.md U7: no meaning is given to it). Safe. -/
  | packetWhileBusy
  deriving DecidableEq, Repr

/-- The state right after reset (10_state.md rule R31): the cursor 0, no packet in progress. The content of `rx_buf` is
unspecified there and 0 here (log entry 3); the store is not reset, nothing of it is listed and every byte reads as the
free value `storeInitial` (log entry 10); nothing is pending (log entry 2). -/
def State.reset : State where
  rxBuf := Vector.replicate 64 0
  cursor := 0
  pkt := []
  pos := 0
  pending := []
  store := []
  draws := 0
  trace := []

end Sys2Proof.Machine
end

