-- ==== Sys2Proof/Machine/Flags.lean ====
section
/-! DEFINITION. The block has no flags and no condition codes (10_state.md rule R29). Its only stored condition is the
state of the Reassembler, a function of the cursor (rule R23). -/

namespace Sys2Proof.Machine

/-- The two states of the Reassembler (10_state.md rule R23). -/
inductive RxState where
  | idle
  | accumulating
  deriving DecidableEq, Repr

/-- `IDLE` when the cursor is 0, `ACCUMULATING` otherwise (10_state.md rule R23). -/
def State.rxState (s : State) : RxState :=
  if s.cursor = 0 then .idle else .accumulating

end Sys2Proof.Machine
end

