-- ==== Sys2Proof/Machine/Ops.lean ====
section
/-! DEFINITION. The named operations over the state: the store, the three storage transactions, the outbound write, the
receive buffer, the silent outcomes (which are this block's exceptions), the scan and reset. -/

namespace Sys2Proof.Machine

/-! The store. `d` is what an unlisted address reads as. -/

/-- The byte at an address. -/
def Memory.read (d : Nat → Byte) : Memory → Nat → Byte
  | [], a => d a
  | (k, v) :: m, a => if k = a then v else Memory.read d m a

/-- One byte written, the canonical form kept. -/
def Memory.write (d : Nat → Byte) : Memory → Nat → Byte → Memory
  | [], a, b => if b = d a then [] else [(a, b)]
  | (k, v) :: m, a, b =>
    if a < k then (if b = d a then (k, v) :: m else (a, b) :: (k, v) :: m)
    else if a = k then (if b = d a then m else (a, b) :: m)
    else (k, v) :: Memory.write d m a b

/-- Bytes written at rising addresses (20_memory.md rule R48). -/
def Memory.writeBytes (d : Nat → Byte) : Memory → Nat → List Byte → Memory
  | m, _, [] => m
  | m, a, b :: bs => Memory.writeBytes d (Memory.write d m a b) (a + 1) bs

/-- The whole store set to `f`, in canonical form. -/
def Memory.tabulate (d : Nat → Byte) (f : Nat → Byte) : Memory :=
  (List.range Config.storeSize).filterMap fun a => if f a = d a then none else some (a, f a)

/-- The canonical form: addresses strictly rising and inside the store, no entry equal to the unlisted byte. -/
abbrev Memory.wf (d : Nat → Byte) (m : Memory) : Prop :=
  m.Pairwise (fun p q => p.1 < q.1) ∧ ∀ p ∈ m, p.1 < Config.storeSize ∧ p.2 ≠ d p.1

/-! The Storage Service (20_memory.md rules R43, R46, R50). -/

/-- What a transaction leaves in the store, by the reference store model (20_memory.md rule R50) and, for a page outside
the store, "unconstrained" (rule R46): every byte of the store a free value. A failed write leaves any value in the 16
bytes it could touch, a failed erase in every byte. -/
def storeAfter (c : Platform) (n : Nat) (req : StorageRequest) (status : Status) (m : Memory) : Memory :=
  match req with
  | .read addr =>
    if inStore addr then m else Memory.tabulate c.storeInitial (c.freeStoreByte n req m)
  | .write addr data =>
    if inStore addr then
      match status with
      | .ok => Memory.writeBytes c.storeInitial m addr.toNat data.toList
      | .fail =>
        Memory.writeBytes c.storeInitial m addr.toNat
          ((List.range Config.pageBytes).map fun i => c.freeStoreByte n req m (addr.toNat + i))
    else Memory.tabulate c.storeInitial (c.freeStoreByte n req m)
  | .eraseAll =>
    match status with
    | .ok => Memory.tabulate c.storeInitial fun _ => c.erasePattern
    | .fail => Memory.tabulate c.storeInitial (c.freeStoreByte n req m)

/-- The 16 bytes a read returns when its status is ok (20_memory.md rule R50); free values outside the store. -/
def readPage (c : Platform) (n : Nat) (addr : Addr) (m : Memory) : Page :=
  Vector.ofFn fun i : Fin 16 =>
    if inStore addr then Memory.read c.storeInitial m (addr.toNat + i.val)
    else c.freeReadByte n (.read addr) m i.val

/-- One storage transaction: its status, and the state after it. It blocks the block until it returns (20_memory.md
rules R43, R49). -/
def storageCall (c : Platform) (req : StorageRequest) (s : State) : Status × State :=
  let status := c.storageStatus s.draws req s.store
  (status,
    { s with
      store := storeAfter c s.draws req status s.store
      draws := s.draws + 1
      trace := s.trace ++ [.storage req status] })

/-! The transport (20_memory.md rule R52) and the Codec's hand-off (40_sysex_codec.md rule R98). -/

/-- `TxWrite(bytes)`: one outbound write; its status is ignored (20_memory.md rule R52). -/
def transmit (c : Platform) (bytes : List Byte) (s : State) : State :=
  { s with
    draws := s.draws + 1
    trace := s.trace ++ [.txWrite bytes (c.txStatus s.draws bytes)] }

/-- A message fragmented by `Encode` and handed to the transport as one write (42_command_validator.md rule R153); the
empty message causes no write (40_sysex_codec.md rule R103). -/
def emit (c : Platform) (msg : List Byte) (s : State) : State :=
  if msg = [] then s else transmit c (encodeGroups c.txCable msg) s

/-! The exceptions of this block: silent outcomes. Taking one saves nothing, sends nothing and transfers control
nowhere; there is no return (60_exceptions.md rules R182, R183). -/

/-- `abort <Reason>` (00_scope.md rule R12): the outcome's name, and nothing else. -/
def abort (reason : AbortReason) (s : State) : State :=
  { s with trace := s.trace ++ [.abort reason] }

/-- A message in progress discarded: the cursor 0, `rx_buf` untouched (10_state.md rules R24, R25). -/
def resetCursor (s : State) : State := { s with cursor := 0 }

/-! The receive buffer (41_reassembler.md rules R119, R120). -/

/-- Bytes written to the buffer from an index on, in payload order (41_reassembler.md rule R120). -/
def writeRx (buf : Vector Byte 64) : Nat → List Byte → Vector Byte 64
  | _, [] => buf
  | i, v :: vs => writeRx (buf.setIfInBounds i v) (i + 1) vs

/-- `Append(k, v)`: the capacity check, then the bytes (41_reassembler.md rules R119, R120). `true` is `done`. -/
def append (vs : List Byte) (s : State) : Bool × State :=
  if s.cursor + vs.length > Config.cap then (false, abort .overflow (resetCursor s))
  else (true, { s with rxBuf := writeRx s.rxBuf s.cursor vs, cursor := s.cursor + vs.length })

/-- The message accumulated so far, `rx_buf[0 .. cursor-1]` (41_reassembler.md rule R121). -/
def State.message (s : State) : List Byte := s.rxBuf.toList.take s.cursor

/-! The scan (41_reassembler.md rules R111, R118, R122). -/

/-- `pos <- pos + adv` (41_reassembler.md rule R122). -/
def advance (adv : Nat) (s : State) : State := { s with pos := s.pos + adv }

/-- `stop_scan`: `pos <- len` (41_reassembler.md rule R118). -/
def stopScan (s : State) : State := { s with pos := s.pkt.length }

/-- A packet delivered: the scan begins at 0 (41_reassembler.md rule R111). -/
def beginPacket (pkt : List Byte) (s : State) : State := { s with pkt := pkt, pos := 0 }

/-- The scan has ended: the packet's transient values are gone (10_state.md rule R26), and the next pending packet, if
there is one, is delivered. With none pending the block is at rest (70_reset_and_hazards.md rule R202). -/
def endScan (s : State) : State :=
  match s.pending with
  | [] => beginPacket [] s
  | p :: ps => beginPacket p { s with pending := ps }

/-- A packet is in progress: a whole group is left to scan, `pos + 4 <= len` (41_reassembler.md rule R111). -/
def State.busy (s : State) : Bool := decide (s.pos + Config.groupBytes ≤ s.pkt.length)

/-- `RxPacket(pkt, len)` from outside the machine: no meaning while a packet is in progress (70_reset_and_hazards.md
rule R203, 93_implementation_defined.md U7). -/
def deliver (pkt : List Byte) (s : State) : Host.Outcome State Fault Refusal :=
  if s.busy then .refused .packetWhileBusy else .next (beginPacket pkt s)

/-! Reset of a running machine (70_reset_and_hazards.md rule R200). -/

/-- A reset between steps: the partial message and the packet in progress are gone, the store is not touched. `rx_buf`
is unspecified after reset and takes the value `State.reset` gives it (log entry 3). -/
def restart (s : State) : State :=
  { s with rxBuf := State.reset.rxBuf, cursor := 0, pkt := [], pos := 0 }

/-- A reset while this storage transaction is outstanding: the bytes it could touch hold any value
(93_implementation_defined.md U5), as after a failed transaction. -/
def restartDuring (c : Platform) (req : StorageRequest) (s : State) : State :=
  restart { s with store := storeAfter c s.draws req .fail s.store, draws := s.draws + 1 }

end Sys2Proof.Machine
end

