-- ==== Sys2Proof/Machine/Dispatcher.lean ====
section
/-! DEFINITION. The Command Dispatcher: the five level-2 operations and `Dispatch` (42_command_validator.md rules R140
to R155). None of them writes the cursor, the receive buffer or the scan (rule R140). -/

namespace Sys2Proof.Machine

/-- The reply of a write or an erase: on `ok`, or whatever the status under `ACK_ANYWAY`; otherwise `STORAGE_FAIL` and
no reply (42_command_validator.md rule R152). -/
def acknowledge (c : Platform) (reply : List Byte) (status : Status) (s : State) : State :=
  if status = .ok ∨ c.replyOnStorageFail = .ackAnyway then emit c reply s else abort .storageFail s

/-- `DUMP_PAGE` (42_command_validator.md rules R147, R150). `params` is `rx_buf[3 .. L-2]`, so `L < 5` is `[]`. -/
def dumpPage (c : Platform) (params : List Byte) (s : State) : State :=
  match params with
  | [] => abort .shortParams s
  | page :: _ =>
    let r := storageCall c (.read (pageAddress page)) s
    match r.1 with
    | .ok => emit c (dumpReply c.toParams page (readPage c s.draws (pageAddress page) s.store)) r.2
    | .fail => abort .storageFail r.2

/-- `ERASE_ALL` (42_command_validator.md rule R148): the magic must match exactly, in this order. -/
def eraseAll (c : Platform) (params : List Byte) (s : State) : State :=
  match params with
  | m0 :: m1 :: _ =>
    if m0 = Config.eraseMagic0 ∧ m1 = Config.eraseMagic1 then
      let r := storageCall c .eraseAll s
      acknowledge c (eraseReply c.toParams) r.1 r.2
    else abort .badMagic s
  | _ => abort .badMagic s

/-- `WRITE_PAGE` (42_command_validator.md rule R149): at least 33 parameter bytes, the surplus ignored (rule R151). -/
def writePage (c : Platform) (params : List Byte) (s : State) : State :=
  if params.length < Config.writeParamMin then abort .shortParams s
  else
    match params with
    | [] => abort .shortParams s
    | page :: nibbles =>
      let r := storageCall c (.write (pageAddress page) (joinPage nibbles)) s
      acknowledge c (writeReply c.toParams) r.1 r.2

/-- `UNKNOWN` (42_command_validator.md rule R144): nothing. -/
def unknownCommand (s : State) : State := abort .unknownCmd s

/-- A message that fails validation: the marker check comes first (42_command_validator.md rules R141, R142;
60_exceptions.md rule R184). -/
def invalidMessage (msg : List Byte) (s : State) : State :=
  if markersOk msg then abort .badManuf s else abort .badMarkers s

/-- `Dispatch(L)` on the message `rx_buf[0 .. L-1]` (42_command_validator.md rule R140). -/
def dispatch (c : Platform) (msg : List Byte) (s : State) : State :=
  let s1 := { s with trace := s.trace ++ [.dispatch msg] }
  match decodeMessage c.toParams msg with
  | .dumpPage ps => dumpPage c ps s1
  | .eraseAll ps => eraseAll c ps s1
  | .writePage ps => writePage c ps s1
  | .unknown _ => unknownCommand s1
  | .invalidMsg m => invalidMessage m s1

/-! The meanings of the level-2 rows. -/

/-- DUMP_PAGE. -/
def execDumpPage (params : List Byte) (s : State) : Host.Outcome State Fault Refusal :=
  .next (dumpPage Config.platform params s)

/-- ERASE_ALL. -/
def execEraseAll (params : List Byte) (s : State) : Host.Outcome State Fault Refusal :=
  .next (eraseAll Config.platform params s)

/-- WRITE_PAGE. -/
def execWritePage (params : List Byte) (s : State) : Host.Outcome State Fault Refusal :=
  .next (writePage Config.platform params s)

/-- UNKNOWN. -/
def execUnknown (_body : List Byte) (s : State) : Host.Outcome State Fault Refusal :=
  .next (unknownCommand s)

/-- INVALID_MSG. -/
def execInvalidMsg (msg : List Byte) (s : State) : Host.Outcome State Fault Refusal :=
  .next (invalidMessage msg s)

end Sys2Proof.Machine
end

