-- ==== Sys2Proof/Machine/Reassembler.lean ====
section
/-! DEFINITION. The Reassembler: finalize, the five group operations, the group step and the scan of a whole packet
(41_reassembler.md rules R110 to R129). -/

namespace Sys2Proof.Machine

/-- `Finalize()`: dispatch the accumulated message, then the cursor 0 whatever the outcome (41_reassembler.md rule
R121). -/
def finalize (c : Platform) (s : State) : State := resetCursor (dispatch c s.message s)

/-- A terminal group: append, finalize if the append was done, and the scan advance in either case (41_reassembler.md
rules R115 to R117, R119, R122). -/
def terminalGroup (c : Platform) (vs : List Byte) (adv : Nat) (s : State) : State :=
  let r := append vs s
  advance adv (if r.1 then finalize c r.2 else r.2)

/-- `SXCONT` (41_reassembler.md rule R114). -/
def sxcont (p1 p2 p3 : Byte) (s : State) : State :=
  advance 4 (append [p1, p2, p3] s).2

/-- `SXEND3` (41_reassembler.md rule R115). -/
def sxend3 (c : Platform) (p1 p2 p3 : Byte) (s : State) : State :=
  terminalGroup c [p1, p2, p3] 4 s

/-- `SXEND2` (41_reassembler.md rule R116). -/
def sxend2 (c : Platform) (p1 p2 : Byte) (s : State) : State :=
  terminalGroup c [p1, p2] c.scanAdvance.afterEnd2 s

/-- `SXEND1` (41_reassembler.md rule R117). -/
def sxend1 (c : Platform) (p1 : Byte) (s : State) : State :=
  terminalGroup c [p1] c.scanAdvance.afterEnd1 s

/-- Step 1 of the group step for a non-SysEx CIN: a message in progress is aborted (41_reassembler.md rule R113). -/
def framingAbort (s : State) : State :=
  if s.cursor > 0 then abort .framingCin (resetCursor s) else s

/-- `NONSX` with the abort before it: the scan of the packet ends (41_reassembler.md rules R113, R118). -/
def nonsx (s : State) : State := stopScan (framingAbort s)

/-- `GroupStep` (41_reassembler.md rule R112). The cable is extracted and unused (rule R124). -/
def groupStep (c : Platform) (b0 b1 b2 b3 : Byte) (s : State) : State :=
  if cinOf b0 = Config.cinCont then sxcont b1 b2 b3 s
  else if cinOf b0 = Config.cinEnd3 then sxend3 c b1 b2 b3 s
  else if cinOf b0 = Config.cinEnd2 then sxend2 c b1 b2 s
  else if cinOf b0 = Config.cinEnd1 then sxend1 c b1 s
  else nonsx s

/-- The scan loop, at most `fuel` group steps (41_reassembler.md rule R111). -/
def scan (c : Platform) : Nat → State → State
  | 0, s => s
  | fuel + 1, s =>
    match s.pkt.drop s.pos with
    | b0 :: b1 :: b2 :: b3 :: _ => scan c fuel (groupStep c b0 b1 b2 b3 s)
    | _ => s

/-- `RxPacket(pkt, len)` to completion, the block's step as 00_scope.md rule R10 has it: the scan, then no transient
value is left (10_state.md rule R26). Each group step moves `pos` forward, so `len` group steps are enough (rule R111). -/
def rxPacket (c : Platform) (pkt : List Byte) (s : State) : State :=
  beginPacket [] (scan c pkt.length (beginPacket pkt s))

/-- A run: packets delivered one after another (70_reset_and_hazards.md rule R202). -/
def rxPackets (c : Platform) : List (List Byte) → State → State
  | [], s => s
  | p :: ps, s => rxPackets c ps (rxPacket c p s)

/-! The meanings of the level-1 rows. Cable and padding are not used (30_encoding.md rule R63). -/

/-- SXCONT. -/
def execSxcont (_cable : Nibble) (p1 p2 p3 : Byte) (s : State) : Host.Outcome State Fault Refusal :=
  .next (sxcont p1 p2 p3 s)

/-- SXEND1. -/
def execSxend1 (_cable : Nibble) (p1 _pad2 _pad3 : Byte) (s : State) : Host.Outcome State Fault Refusal :=
  .next (sxend1 Config.platform p1 s)

/-- SXEND2. -/
def execSxend2 (_cable : Nibble) (p1 p2 _pad3 : Byte) (s : State) : Host.Outcome State Fault Refusal :=
  .next (sxend2 Config.platform p1 p2 s)

/-- SXEND3. -/
def execSxend3 (_cable : Nibble) (p1 p2 p3 : Byte) (s : State) : Host.Outcome State Fault Refusal :=
  .next (sxend3 Config.platform p1 p2 p3 s)

/-- NONSX_LO: CIN 0 to 3. -/
def execNonsxLo (_cable : Nibble) (_cin : BitVec 2) (_p1 _p2 _p3 : Byte) (s : State) :
    Host.Outcome State Fault Refusal :=
  .next (nonsx s)

/-- NONSX_HI: CIN 8 to 15. -/
def execNonsxHi (_cable : Nibble) (_cin : BitVec 3) (_p1 _p2 _p3 : Byte) (s : State) :
    Host.Outcome State Fault Refusal :=
  .next (nonsx s)

end Sys2Proof.Machine
end

