-- ==== Sys2Proof/Machine/Reply.lean ====
section
/-! DEFINITION. The outbound rows: the three replies, each built, fragmented and handed to the transport as one write
(30_encoding.md rules R75 to R77, 42_command_validator.md rule R153), and ENCODE (40_sysex_codec.md rules R91, R98). -/

namespace Sys2Proof.Machine

/-- RSP_DUMP. -/
def execRspDump (page : Byte) (data : Page) (s : State) : Host.Outcome State Fault Refusal :=
  .next (emit Config.platform (dumpReply Config.platform.toParams page data) s)

/-- RSP_ERASE. -/
def execRspErase (s : State) : Host.Outcome State Fault Refusal :=
  .next (emit Config.platform (eraseReply Config.platform.toParams) s)

/-- RSP_WRITE. -/
def execRspWrite (s : State) : Host.Outcome State Fault Refusal :=
  .next (emit Config.platform (writeReply Config.platform.toParams) s)

/-- ENCODE. -/
def execEncode (msg : List Byte) (s : State) : Host.Outcome State Fault Refusal :=
  .next (emit Config.platform msg s)

end Sys2Proof.Machine
end

