-- ==== Sys2Proof/Machine/Dispatch.lean ====
section
/-! DEFINITION. One arm per row of spec/opcode_table.json. -/

namespace Sys2Proof.Machine

def exec (i : Instr) (s : State) : Host.Outcome State Fault Refusal :=
  match i with
  | .sxcont cable p1 p2 p3 => Sys2Proof.Machine.execSxcont cable p1 p2 p3 s
  | .sxend1 cable p1 pad2 pad3 => Sys2Proof.Machine.execSxend1 cable p1 pad2 pad3 s
  | .sxend2 cable p1 p2 pad3 => Sys2Proof.Machine.execSxend2 cable p1 p2 pad3 s
  | .sxend3 cable p1 p2 p3 => Sys2Proof.Machine.execSxend3 cable p1 p2 p3 s
  | .nonsxLo cable cin p1 p2 p3 => Sys2Proof.Machine.execNonsxLo cable cin p1 p2 p3 s
  | .nonsxHi cable cin p1 p2 p3 => Sys2Proof.Machine.execNonsxHi cable cin p1 p2 p3 s
  | .dumpPage params => Sys2Proof.Machine.execDumpPage params s
  | .eraseAll params => Sys2Proof.Machine.execEraseAll params s
  | .writePage params => Sys2Proof.Machine.execWritePage params s
  | .unknown body => Sys2Proof.Machine.execUnknown body s
  | .invalidMsg msg => Sys2Proof.Machine.execInvalidMsg msg s
  | .rspDump page data => Sys2Proof.Machine.execRspDump page data s
  | .rspErase => Sys2Proof.Machine.execRspErase s
  | .rspWrite => Sys2Proof.Machine.execRspWrite s
  | .encode msg => Sys2Proof.Machine.execEncode msg s

end Sys2Proof.Machine
end

