-- ==== Sys2Proof/Machine/Fetch.lean ====
section
/-! DEFINITION. Fetching the group at the scan position, and placing one there (41_reassembler.md rules R111, R112). -/

namespace Sys2Proof.Machine

/-- The operation at the scan position; none when fewer than 4 bytes are left, which ends the scan (41_reassembler.md
rule R111). -/
def fetchInstr (s : State) : Option Instr :=
  match decode (s.pkt.drop s.pos) with
  | .ok (i, _) => some i
  | .error _ => none

/-- A packet of the one group of a table word, at the beginning of its scan. -/
def placeGroupWord (nbits w : Nat) (s : State) : State :=
  beginPacket (groupWordBytes (tableWord nbits w)) s

end Sys2Proof.Machine
end

