-- ==== Sys2Proof/Machine/Step.lean ====
section
/-! DEFINITION. One step of the machine: one group step, or the end of a scan and the next delivery. -/

namespace Sys2Proof.Machine

/-- One step: the group at the scan position is executed (41_reassembler.md rule R111); when none is left the scan ends
and the next packet is delivered (log entries 1 and 2). -/
def step (s : State) : Host.Outcome State Fault Refusal :=
  match fetchInstr s with
  | some i => exec i s
  | none => .next (endScan s)

/-- The state with one group word placed where `step` fetches: a packet of that one group, just delivered. -/
def State.withFetchWord (s : State) (nbits w : Nat) : State := placeGroupWord nbits w s

end Sys2Proof.Machine
end

