-- ==== Sys2Proof/Safety.lean ====
section
/-! DEFINITION. The terms claims are made in: the invariant, what a step leaves alone, reading the store, and reading
the trace. -/

namespace Sys2Proof.Machine

/-- The byte of the store at an address, as the Storage Service would read it. -/
def State.storeByte (c : Platform) (s : State) (a : Nat) : Byte := Memory.read c.storeInitial s.store a

/-- What holds between any two group steps and between packets: the cursor is one of 0, 3, …, 63 (41_reassembler.md rule
R129), the scan position lies in the packet (10_state.md rule R28), the store is in canonical form. -/
def State.Inv (c : Platform) (s : State) : Prop :=
  s.cursor ≤ 63 ∧ s.cursor % 3 = 0 ∧ s.pos ≤ s.pkt.length ∧ Memory.wf c.storeInitial s.store

/-- At rest: no packet in progress (70_reset_and_hazards.md rule R202). -/
def State.AtRest (s : State) : Prop := s.pkt = [] ∧ s.pos = 0

/-- The block's own state and the scan are the same in both (42_command_validator.md rule R140). -/
def SameBlock (s t : State) : Prop :=
  t.rxBuf = s.rxBuf ∧ t.cursor = s.cursor ∧ t.pkt = s.pkt ∧ t.pos = s.pos ∧ t.pending = s.pending

/-- Every byte of the store reads the same in both. -/
def SameStore (c : Platform) (s t : State) : Prop := ∀ a, t.storeByte c a = s.storeByte c a

/-- The receive buffer of `t` is that of `s` with these bytes from index `k` on. -/
def BufferWritten (s t : State) (k : Nat) (vs : List Byte) : Prop :=
  ∀ j, ∀ h : j < 64, t.rxBuf[j] = if k ≤ j then (vs[j - k]?).getD s.rxBuf[j] else s.rxBuf[j]

/-- The messages dispatched, in order. -/
def dispatchesIn (es : List Event) : List (List Byte) :=
  es.filterMap fun e => match e with
    | .dispatch m => some m
    | _ => none

/-- The storage transactions launched, in order. -/
def storageIn (es : List Event) : List StorageRequest :=
  es.filterMap fun e => match e with
    | .storage r _ => some r
    | _ => none

/-- The outbound writes, in order. -/
def txIn (es : List Event) : List (List Byte) :=
  es.filterMap fun e => match e with
    | .txWrite b _ => some b
    | _ => none

/-- What 41_reassembler.md rules R115 to R117 and R121 say of a terminal group whose payload `vs` fits: the bytes are
appended, the message so completed is decoded and its operation executed on that state, then the cursor is 0 and the
scan has moved by `adv`. `buf` is the buffer after the append and `u` the state the level-2 operation leaves. -/
def TerminalGroupRuns (i : Instr) (vs : List Byte) (adv : Nat) (s : State) : Prop :=
  ∃ (buf : Vector Byte 64) (u : State),
    (∀ j, ∀ h : j < 64, buf[j] = if s.cursor ≤ j then (vs[j - s.cursor]?).getD s.rxBuf[j] else s.rxBuf[j]) ∧
    exec (decodeMessage Config.platform.toParams (s.rxBuf.toList.take s.cursor ++ vs)).toInstr
        { s with
          rxBuf := buf
          cursor := s.cursor + vs.length
          trace := s.trace ++ [.dispatch (s.rxBuf.toList.take s.cursor ++ vs)] } = .next u ∧
    exec i s = .next { u with cursor := 0, pos := s.pos + adv }

/-- What 41_reassembler.md rule R119 says of a group whose payload does not fit: the message is discarded, nothing is
appended, nothing is dispatched, and the scan moves by the group's advance. -/
def GroupOverflows (i : Instr) (adv : Nat) (s : State) : Prop :=
  exec i s = .next { s with cursor := 0, pos := s.pos + adv, trace := s.trace ++ [.abort .overflow] }

/-- The outbound write made of a message, and the transport's answer to it, when `n` answers have been drawn before. -/
def replyEvent (c : Platform) (n : Nat) (msg : List Byte) : Event :=
  .txWrite (encodeGroups c.txCable msg) (c.txStatus n (encodeGroups c.txCable msg))

/-- What 42_command_validator.md rules R148, R149 and R152 say of a write or an erase, from the state `s` it is launched
in to the state `t` it leaves: the block untouched; one transaction; then the reply, on `ok` or whatever the status under
`ACK_ANYWAY`, and otherwise STORAGE_FAIL with no reply. -/
def Acknowledged (c : Platform) (q : StorageRequest) (reply : List Byte) (s t : State) : Prop :=
  let status := c.storageStatus s.draws q s.store
  let replies := status = .ok ∨ c.replyOnStorageFail = .ackAnyway
  SameBlock s t ∧
    t.trace = s.trace ++ .storage q status ::
      (if replies then [replyEvent c (s.draws + 1) reply] else [.abort .storageFail]) ∧
    t.draws = s.draws + (if replies then 2 else 1)

/-- The header of every whole group of a packet carries a SysEx CIN. -/
def OnlySysexGroups (p : List Byte) : Prop :=
  ∀ k, 4 * k < p.length → (inverseShape (cinOf (p.getD (4 * k) 0))).isSome = true

/-- Whether a transaction is a read, the one kind whose failure `ACK_ANYWAY` does not cover (42_command_validator.md rule
R152). -/
def isRead : StorageRequest → Bool
  | .read _ => true
  | .write _ _ => false
  | .eraseAll => false

/-- A Storage Service that answers `ok` to everything (the healthy store of 20_memory.md rule R50). -/
def Healthy (c : Platform) : Prop := ∀ n req m, c.storageStatus n req m = .ok

end Sys2Proof.Machine

namespace Sys2Proof

/-- The rows of level 1: one group. -/
def Instr.isGroup : Instr → Bool
  | .sxcont _ _ _ _ => true
  | .sxend1 _ _ _ _ => true
  | .sxend2 _ _ _ _ => true
  | .sxend3 _ _ _ _ => true
  | .nonsxLo _ _ _ _ _ => true
  | .nonsxHi _ _ _ _ _ => true
  | .dumpPage _ => false
  | .eraseAll _ => false
  | .writePage _ => false
  | .unknown _ => false
  | .invalidMsg _ => false
  | .rspDump _ _ => false
  | .rspErase => false
  | .rspWrite => false
  | .encode _ => false

/-- How many payload bytes a group carries (40_sysex_codec.md rule R100); the other rows carry none. -/
def Instr.payloadLength : Instr → Nat
  | .sxcont _ _ _ _ => 3
  | .sxend1 _ _ _ _ => 1
  | .sxend2 _ _ _ _ => 2
  | .sxend3 _ _ _ _ => 3
  | .nonsxLo _ _ _ _ _ => 0
  | .nonsxHi _ _ _ _ _ => 0
  | .dumpPage _ => 0
  | .eraseAll _ => 0
  | .writePage _ => 0
  | .unknown _ => 0
  | .invalidMsg _ => 0
  | .rspDump _ _ => 0
  | .rspErase => 0
  | .rspWrite => 0
  | .encode _ => 0

/-- The rows whose operation can launch a storage transaction: the three commands, and the terminal groups that dispatch
one. -/
def Instr.mayStore : Instr → Bool
  | .sxcont _ _ _ _ => false
  | .sxend1 _ _ _ _ => true
  | .sxend2 _ _ _ _ => true
  | .sxend3 _ _ _ _ => true
  | .nonsxLo _ _ _ _ _ => false
  | .nonsxHi _ _ _ _ _ => false
  | .dumpPage _ => true
  | .eraseAll _ => true
  | .writePage _ => true
  | .unknown _ => false
  | .invalidMsg _ => false
  | .rspDump _ _ => false
  | .rspErase => false
  | .rspWrite => false
  | .encode _ => false

end Sys2Proof
end

