-- ==== Sys2Proof/Certificates/Slice0/Obligations.lean ====
section
/-! DEFINITION. The statements for the provers. In each, `Config.platform` is the machine of `step`; a statement over
`c : Platform` holds for every configuration and every behaviour of the two neighbours that its hypotheses admit. -/

open Sys2Proof Sys2Proof.Machine

/-! Level 1: the group operations. -/

/-- SXCONT with room in the buffer (41_reassembler.md, section 2): three bytes appended at the cursor, cursor and scan
moved on, everything else as it was. The advance of 4 is the document's own for this group. -/
def Obligations.SxcontAppendsThreePayloadBytes : Prop :=
  ∀ (cable : Nibble) (p1 p2 p3 : Byte) (s : State), s.cursor + 3 ≤ 64 →
    ∃ t, exec (.sxcont cable p1 p2 p3) s = .next t ∧ BufferWritten s t s.cursor [p1, p2, p3] ∧
      t.message = s.message ++ [p1, p2, p3] ∧ t.cursor = s.cursor + 3 ∧ t.pos = s.pos + 4 ∧
      t.pkt = s.pkt ∧ t.pending = s.pending ∧ SameStore Config.platform s t ∧ t.draws = s.draws ∧ t.trace = s.trace

/-- SXEND3 with room (41_reassembler.md, section 2). -/
def Obligations.SxendThreeFinalizesTheMessage : Prop :=
  ∀ (cable : Nibble) (p1 p2 p3 : Byte) (s : State), s.cursor + 3 ≤ 64 →
    TerminalGroupRuns (.sxend3 cable p1 p2 p3) [p1, p2, p3] 4 s

/-- SXEND2 with room; the padding byte is not read. The advance of 4 is the spec's decision D1 (log entry 5). -/
def Obligations.SxendTwoFinalizesTheMessage : Prop :=
  ∀ (cable : Nibble) (p1 p2 pad3 : Byte) (s : State), s.cursor + 2 ≤ 64 →
    TerminalGroupRuns (.sxend2 cable p1 p2 pad3) [p1, p2] 4 s

/-- SXEND1 with room; the padding bytes are not read. The advance of 4 is the spec's decision D1 (log entry 5). -/
def Obligations.SxendOneFinalizesTheMessage : Prop :=
  ∀ (cable : Nibble) (p1 pad2 pad3 : Byte) (s : State), s.cursor + 1 ≤ 64 →
    TerminalGroupRuns (.sxend1 cable p1 pad2 pad3) [p1] 4 s

/-- The capacity check of the four SysEx groups (41_reassembler.md rule R119). That a terminal group does not finalize
and that the scan goes on are the spec's decision D19 (log entry 19); the advance of 4 after SXEND2 and SXEND1 is its
decision D1 (log entry 5); the recorded name OVERFLOW is the model's label (D22, log entry 11). -/
def Obligations.OverflowingGroupDiscardsTheMessage : Prop :=
  ∀ (cable : Nibble) (p1 p2 p3 : Byte) (s : State),
    (64 < s.cursor + 3 → GroupOverflows (.sxcont cable p1 p2 p3) 4 s ∧ GroupOverflows (.sxend3 cable p1 p2 p3) 4 s) ∧
    (64 < s.cursor + 2 → GroupOverflows (.sxend2 cable p1 p2 p3) 4 s) ∧
    (64 < s.cursor + 1 → GroupOverflows (.sxend1 cable p1 p2 p3) 4 s)

/-- Both NONSX rows: the scan of the packet ends, and a message in progress is aborted with no dispatch, no storage
call and no reply. That the scan ends after an abort too is the spec's decision D18 (log entry 18). -/
def Obligations.NonsxAbortsAndEndsTheScan : Prop :=
  ∀ (cable : Nibble) (lo : BitVec 2) (hi : BitVec 3) (p1 p2 p3 : Byte) (s : State),
    let t := { s with
      cursor := 0
      pos := s.pkt.length
      trace := if s.cursor = 0 then s.trace else s.trace ++ [.abort .framingCin] }
    exec (.nonsxLo cable lo p1 p2 p3) s = .next t ∧ exec (.nonsxHi cable hi p1 p2 p3) s = .next t

/-! Level 2: the messages. -/

/-- DUMP_PAGE of a page of the store (42_command_validator.md, section 2): one read of the page, the reply on `ok`,
nothing on `fail`; the store reads as before, the block is untouched. The page is read from and left by the reference
store model (20_memory.md rule R50, the spec's decision D12, log entry 8); that surplus parameters are ignored is its
decision D21 (log entry 21); the recorded name STORAGE_FAIL is the model's label (D22, log entry 11). -/
def Obligations.DumpPageReadsThePageAndReplies : Prop :=
  ∀ (page : Byte) (rest : List Byte) (s : State), page.toNat < 64 →
    let q := StorageRequest.read (BitVec.ofNat 16 (16 * page.toNat))
    let status := Config.platform.storageStatus s.draws q s.store
    let nibbles := (List.range 16).flatMap fun i =>
      [hiNibble (s.storeByte Config.platform (16 * page.toNat + i)),
        loNibble (s.storeByte Config.platform (16 * page.toNat + i))]
    let reply := [0xF0, idByte Config.platform.manufId, idByte Config.platform.rspDump, page] ++ nibbles ++ [0xF7]
    ∃ t, exec (.dumpPage (page :: rest)) s = .next t ∧ SameBlock s t ∧ SameStore Config.platform s t ∧
      t.trace = s.trace ++ .storage q status ::
        (match status with
          | .ok => [replyEvent Config.platform (s.draws + 1) reply]
          | .fail => [.abort .storageFail]) ∧
      t.draws = s.draws + (match status with
        | .ok => 2
        | .fail => 1)

/-- ERASE_ALL with the magic (42_command_validator.md rule R148), under every configuration, that of `exec` among them:
one erase transaction; on `ok` every byte of the store is the erase pattern (the reference store model of 20_memory.md
rule R50, the spec's decision D12, log entry 8); the reply on `ok`, or whatever the status where `REPLY_ON_STORAGE_FAIL`
is `ACK_ANYWAY` (D5, log entry 5). That surplus bytes behind the magic are ignored is the spec's decision D21 (log entry
21); the recorded name STORAGE_FAIL is the model's label (D22, log entry 11). -/
def Obligations.EraseAllErasesTheStoreAndReplies : Prop :=
  ∀ (rest : List Byte) (s : State),
    exec (.eraseAll (0x42 :: 0x24 :: rest)) s = .next (eraseAll Config.platform (0x42 :: 0x24 :: rest) s) ∧
    ∀ c : Platform,
      let t := eraseAll c (0x42 :: 0x24 :: rest) s
      Acknowledged c .eraseAll [0xF0, idByte c.manufId, idByte c.rspErase, 0xF7] s t ∧
        (c.storageStatus s.draws .eraseAll s.store = .ok → ∀ a < 1024, t.storeByte c a = c.erasePattern) ∧
        (Memory.wf c.storeInitial s.store → ∀ a, 1024 ≤ a → t.storeByte c a = s.storeByte c a)

/-- WRITE_PAGE of a page of the store with at least 33 parameter bytes (42_command_validator.md, section 2), under
every configuration, that of `exec` among them: one write of the 16 joined bytes (the low 8 bits of the formula: the
spec's decision D14, log entry 14) at `pageAddress page`; on `ok` they stand there; every other byte is as before,
whatever the status, which after a failed write is the failure arm of the reference store model (20_memory.md rule R50,
the spec's decision D12, U5; log entry 8); surplus parameters are ignored (D21, log entry 21). The recorded name
STORAGE_FAIL is the model's label (D22, log entry 11). -/
def Obligations.WritePageStoresThePageAndReplies : Prop :=
  ∀ (page : Byte) (nibbles : List Byte) (s : State), page.toNat < 64 → 32 ≤ nibbles.length →
    exec (.writePage (page :: nibbles)) s = .next (writePage Config.platform (page :: nibbles) s) ∧
    ∀ c : Platform, Memory.wf c.storeInitial s.store →
      let q := StorageRequest.write (pageAddress page) (joinPage nibbles)
      let t := writePage c (page :: nibbles) s
      Acknowledged c q [0xF0, idByte c.manufId, idByte c.rspWrite, 0xF7] s t ∧
        (c.storageStatus s.draws q s.store = .ok → ∀ i < 16,
          t.storeByte c ((pageAddress page).toNat + i) =
            (nibbles.getD (2 * i) 0 <<< 4) ||| nibbles.getD (2 * i + 1) 0) ∧
        ∀ a, a < (pageAddress page).toNat ∨ (pageAddress page).toNat + 16 ≤ a → t.storeByte c a = s.storeByte c a

/-- A page number of 64 or more is not refused (42_command_validator.md rule R155): the transaction is launched at
`page * 16`, and what the block sends follows from the status as for any page: the dump reply echoes the page and
carries the 16 bytes the read returned. It holds under every configuration, that of `exec` among them. The status,
those bytes and the store afterwards are unconstrained (20_memory.md rule R46, the spec's decision D11, log entry 9);
the join is its decision D14 (log entry 14), the ignored surplus its D21 (log entry 21), the recorded name STORAGE_FAIL
its D22 (log entry 11). -/
def Obligations.PagesOutsideTheStoreArePassedOn : Prop :=
  ∀ (page : Byte) (rest nibbles : List Byte) (s : State), 64 ≤ page.toNat → 32 ≤ nibbles.length →
    exec (.dumpPage (page :: rest)) s = .next (dumpPage Config.platform (page :: rest) s) ∧
    exec (.writePage (page :: nibbles)) s = .next (writePage Config.platform (page :: nibbles) s) ∧
    ∀ c : Platform,
      let addr := BitVec.ofNat 16 (16 * page.toNat)
      let status := c.storageStatus s.draws (.read addr) s.store
      let reply := [0xF0, idByte c.manufId, idByte c.rspDump, page] ++
        splitPage (readPage c s.draws addr s.store) ++ [0xF7]
      let t := dumpPage c (page :: rest) s
      (SameBlock s t ∧
        t.trace = s.trace ++ .storage (.read addr) status ::
          (match status with
            | .ok => [replyEvent c (s.draws + 1) reply]
            | .fail => [.abort .storageFail]) ∧
        t.draws = s.draws + (match status with
          | .ok => 2
          | .fail => 1)) ∧
      Acknowledged c (.write addr (joinPage nibbles)) [0xF0, idByte c.manufId, idByte c.rspWrite, 0xF7] s
        (writePage c (page :: nibbles) s)

/-- Requests whose parameters are short or whose magic is wrong do nothing: no transaction, no reply, every field of the
state but the outcome's name as before. The length guard of DUMP_PAGE is the spec's decision D20 (log entry 20). -/
def Obligations.ShortOrUnmagicRequestsDoNothing : Prop :=
  ∀ (ps : List Byte) (m0 m1 : Byte) (s : State),
    exec (.dumpPage []) s = .next { s with trace := s.trace ++ [.abort .shortParams] } ∧
    (ps.length < 33 → exec (.writePage ps) s = .next { s with trace := s.trace ++ [.abort .shortParams] }) ∧
    (ps.length < 2 → exec (.eraseAll ps) s = .next { s with trace := s.trace ++ [.abort .badMagic] }) ∧
    ((m0, m1) ≠ (0x42, 0x24) →
      exec (.eraseAll (m0 :: m1 :: ps)) s = .next { s with trace := s.trace ++ [.abort .badMagic] })

/-- UNKNOWN does nothing (42_command_validator.md rule R144). -/
def Obligations.UnknownCommandDoesNothing : Prop :=
  ∀ (body : List Byte) (s : State),
    exec (.unknown body) s = .next { s with trace := s.trace ++ [.abort .unknownCmd] }

/-- A message without its markers, or with another manufacturer id, does nothing; the marker check comes first
(42_command_validator.md rules R141, R142). -/
def Obligations.InvalidMessageDoesNothing : Prop :=
  ∀ (msg : List Byte) (s : State),
    (msg.head? ≠ some 0xF0 ∨ msg.getLast? ≠ some 0xF7 →
      exec (.invalidMsg msg) s = .next { s with trace := s.trace ++ [.abort .badMarkers] }) ∧
    (msg.head? = some 0xF0 → msg.getLast? = some 0xF7 →
      exec (.invalidMsg msg) s = .next { s with trace := s.trace ++ [.abort .badManuf] })

/-- The order of the validator's checks and the priority of its outcomes (42_command_validator.md rules R140 to R144):
a message that fails one of them has no effect but the outcome's name. The names are the spec's decision D22, their
priority its inference in 60_exceptions.md rule R184 (log entry 11). -/
def Obligations.ValidatorRejectsInOrder : Prop :=
  ∀ (c : Platform) (m : List Byte) (s : State),
    let rejected (r : AbortReason) := { s with trace := s.trace ++ [.dispatch m, .abort r] }
    (m.head? ≠ some 0xF0 ∨ m.getLast? ≠ some 0xF7 → dispatch c m s = rejected .badMarkers) ∧
    (m.head? = some 0xF0 → m.getLast? = some 0xF7 → m[1]? ≠ some (idByte c.manufId) →
      dispatch c m s = rejected .badManuf) ∧
    (m.head? = some 0xF0 → m.getLast? = some 0xF7 → m[1]? = some (idByte c.manufId) →
      m[2]? ≠ some (idByte c.cmdDump) → m[2]? ≠ some (idByte c.cmdErase) → m[2]? ≠ some (idByte c.cmdWrite) →
      dispatch c m s = rejected .unknownCmd)

/-- Per dispatch at most one transaction and at most one reply, a reply only after a transaction, and no block state
written (42_command_validator.md rules R140, R154; R154 is the spec's own inference). After a failure a read is never
answered, and a write or an erase exactly under `ACK_ANYWAY` (rule R152, the spec's decision D5, log entry 5). The
recorded names are the model's labels (D22, log entry 11). -/
def Obligations.DispatchMakesAtMostOneCallAndOneReply : Prop :=
  ∀ (c : Platform) (m : List Byte) (s : State), SameBlock s (dispatch c m s) ∧
    ((∃ r, r ≠ .storageFail ∧ (dispatch c m s).trace = s.trace ++ [.dispatch m, .abort r]) ∨
      (∃ q, c.storageStatus s.draws q s.store = .fail ∧ (isRead q = true ∨ c.replyOnStorageFail = .noReply) ∧
        (dispatch c m s).trace = s.trace ++ [.dispatch m, .storage q .fail, .abort .storageFail]) ∨
      (∃ q reply,
        let status := c.storageStatus s.draws q s.store
        (status = .ok ∨ (isRead q = false ∧ c.replyOnStorageFail = .ackAnyway)) ∧
        (dispatch c m s).trace =
          s.trace ++ [.dispatch m, .storage q status, replyEvent c (s.draws + 1) reply]))

/-! The outbound rows. -/

/-- RSP_DUMP: the 37 bytes of the reply (30_encoding.md rule R75) go out as one write (40_sysex_codec.md rule R98).
That the row is an operation of its own that emits its reply is the model's reading (log entry 16). -/
def Obligations.DumpReplyIsOneWrite : Prop :=
  ∀ (page : Byte) (data : Page) (s : State),
    let nibbles := (List.range 16).flatMap fun i => [hiNibble (data.toList.getD i 0), loNibble (data.toList.getD i 0)]
    let reply := [0xF0, idByte Config.platform.manufId, idByte Config.platform.rspDump, page] ++ nibbles ++ [0xF7]
    reply.length = 37 ∧
    exec (.rspDump page data) s =
      .next { s with draws := s.draws + 1, trace := s.trace ++ [replyEvent Config.platform s.draws reply] }

/-- RSP_ERASE and RSP_WRITE: the 4 bytes of the reply (30_encoding.md rules R76, R77) go out as one write
(40_sysex_codec.md rule R98). That the rows are operations of their own that emit their replies is the model's reading
(log entry 16). -/
def Obligations.EraseAndWriteRepliesAreOneWrite : Prop :=
  ∀ s : State,
    exec .rspErase s = .next { s with
      draws := s.draws + 1
      trace := s.trace ++
        [replyEvent Config.platform s.draws [0xF0, idByte Config.platform.manufId, idByte Config.platform.rspErase, 0xF7]] } ∧
    exec .rspWrite s = .next { s with
      draws := s.draws + 1
      trace := s.trace ++
        [replyEvent Config.platform s.draws [0xF0, idByte Config.platform.manufId, idByte Config.platform.rspWrite, 0xF7]] }

/-- ENCODE: the groups of the message go out as one write; the empty message causes none (that is the spec's decision
D16, log entry 16). -/
def Obligations.EncodeHandsOverOneWrite : Prop :=
  ∀ (msg : List Byte) (s : State),
    (msg ≠ [] → exec (.encode msg) s =
      .next { s with draws := s.draws + 1, trace := s.trace ++ [replyEvent Config.platform s.draws msg] }) ∧
    exec (.encode []) s = .next s

/-- What the rows leave alone. The rows of level 2 and outbound leave the block; a group, which moves the cursor and
the scan position, leaves the packet, the pending packets and every byte of the receive buffer outside its own payload
bytes; the rows that launch no transaction leave every byte of the store, and such a group draws no answer either. -/
def Obligations.RowsThatStoreNothingLeaveTheStore : Prop :=
  ∀ (i : Instr) (s t : State), exec i s = .next t →
    (i.isGroup = false → SameBlock s t) ∧
    (i.isGroup = true → t.pkt = s.pkt ∧ t.pending = s.pending ∧
      ∀ j, ∀ h : j < 64, j < s.cursor ∨ s.cursor + i.payloadLength ≤ j → t.rxBuf[j] = s.rxBuf[j]) ∧
    (i.mayStore = false → SameStore Config.platform s t) ∧
    (i.isGroup = true → i.mayStore = false → t.draws = s.draws)

/-! The Codec. -/

/-- The five cases of `Encode` (40_sysex_codec.md rules R92 to R96), for every cable. -/
def Obligations.EncodeWalksInStridesOfThree : Prop :=
  ∀ (cable : Nibble) (a b d : Byte) (rest : List Byte),
    (rest ≠ [] → encodeGroups cable (a :: b :: d :: rest) =
      [headerByte cable 0x4, a, b, d] ++ encodeGroups cable rest) ∧
    encodeGroups cable [a, b, d] = [headerByte cable 0x7, a, b, d] ∧
    encodeGroups cable [a, b] = [headerByte cable 0x6, a, b, 0xFF] ∧
    encodeGroups cable [a] = [headerByte cable 0x5, a, 0xFF, 0xFF] ∧
    encodeGroups cable [] = []

/-- The closed form of `Encode` (40_sysex_codec.md rule R99, the spec's own inference): every group but the last is
SXCONT with its three bytes, the last is the terminal group of the 1, 2 or 3 bytes left. -/
def Obligations.EncodeClosedForm : Prop :=
  ∀ (cable : Nibble) (msg : List Byte), 1 ≤ msg.length →
    let q := (msg.length + 2) / 3
    let last := msg.drop (3 * (q - 1))
    encodeGroups cable msg =
      ((List.range (q - 1)).flatMap fun k =>
        [headerByte cable 0x4, msg.getD (3 * k) 0, msg.getD (3 * k + 1) 0, msg.getD (3 * k + 2) 0]) ++
      headerByte cable (if msg.length % 3 = 1 then 0x5 else if msg.length % 3 = 2 then 0x6 else 0x7) ::
        (last ++ List.replicate (3 - last.length) 0xFF)

/-- The inverse mapping undoes `Encode` (an inference from 40_sysex_codec.md rules R91 and R100): the valid payload
bytes of the groups are the message, for every cable and every length. -/
def Obligations.PayloadsOfTheGroupsAreTheMessage : Prop :=
  ∀ (cable : Nibble) (msg : List Byte), groupPayloads (encodeGroups cable msg) = msg

/-- The inverse mapping as a table, and the valid bytes of a group as the table has them (40_sysex_codec.md rule R100).
-/
def Obligations.InverseMappingTable : Prop :=
  inverseShape 0x4 = some (3, false) ∧ inverseShape 0x7 = some (3, true) ∧ inverseShape 0x6 = some (2, true) ∧
    inverseShape 0x5 = some (1, true) ∧
    (∀ cin : Nibble, cin ≠ 0x4 → cin ≠ 0x5 → cin ≠ 0x6 → cin ≠ 0x7 → inverseShape cin = none) ∧
    ∀ (b0 b1 b2 b3 : Byte) (rest : List Byte),
      groupPayloads (b0 :: b1 :: b2 :: b3 :: rest) =
        (match inverseShape (cinOf b0) with
          | some (k, _) => [b1, b2, b3].take k
          | none => []) ++ groupPayloads rest

/-! Arithmetic. -/

/-- The nibble split, exactly (30_encoding.md rule R69). -/
def Obligations.NibbleSplitIsHighThenLow : Prop :=
  (∀ d : Byte, (hiNibble d).toNat = d.toNat / 16 ∧ (loNibble d).toNat = d.toNat % 16) ∧
    ∀ data : Page, splitPage data = data.toList.flatMap fun d => [hiNibble d, loNibble d]

/-- The nibble join is the low 8 bits of the formula and undoes the split (30_encoding.md section 3; that the low 8 bits
are taken is the spec's decision D14, log entry 14). -/
def Obligations.NibbleJoinUndoesTheSplit : Prop :=
  (∀ h l : Byte, (joinNibbles h l).toNat = ((h.toNat <<< 4) ||| l.toNat) % 256) ∧
    ∀ (data : Page) (rest : List Byte), joinPage (splitPage data ++ rest) = data

/-- The page address: no truncation, always a multiple of 16 (20_memory.md rule R44). -/
def Obligations.PageAddressIsPageTimesSixteen : Prop :=
  ∀ page : Byte, (pageAddress page).toNat = page.toNat * 16 ∧ (pageAddress page).toNat ≤ 4080 ∧
    (pageAddress page).extractLsb' 0 4 = 0

/-- Device-select folding (20_memory.md rule R47): address bits 9 and 8 land at bits 2 and 1; bits 15 to 10 and 7 to 0
do not enter. -/
def Obligations.DeviceSelectFoldsTwoAddressBits : Prop :=
  ∀ (c : Params) (addr : Addr),
    deviceSelect c addr = c.devselBase ||| (2 * ((addr.toNat / 256) % 4)) ∧
    ∀ addr' : Addr, addr'.extractLsb' 8 2 = addr.extractLsb' 8 2 → deviceSelect c addr' = deviceSelect c addr

/-! Decoding. -/

/-- The fields of the group word (30_encoding.md rule R60) and the operation its CIN selects: the six rows of
30_encoding.md rule R65, one of which matches every word. -/
def Obligations.DecodingReadsTheFieldsOfTheGroup : Prop :=
  ∀ W : BitVec 32,
    let cable := W.extractLsb' 28 4
    let p1 := W.extractLsb' 16 8
    let p2 := W.extractLsb' 8 8
    let p3 := W.extractLsb' 0 8
    let reads (i : Instr) := decode (groupWordBytes W) = .ok (i, [])
    (W &&& 0x0F000000 = 0x04000000 → reads (.sxcont cable p1 p2 p3)) ∧
    (W &&& 0x0F000000 = 0x05000000 → reads (.sxend1 cable p1 p2 p3)) ∧
    (W &&& 0x0F000000 = 0x06000000 → reads (.sxend2 cable p1 p2 p3)) ∧
    (W &&& 0x0F000000 = 0x07000000 → reads (.sxend3 cable p1 p2 p3)) ∧
    (W &&& 0x0C000000 = 0x00000000 → reads (.nonsxLo cable (W.extractLsb' 24 2) p1 p2 p3)) ∧
    (W &&& 0x08000000 = 0x08000000 → reads (.nonsxHi cable (W.extractLsb' 24 3) p1 p2 p3)) ∧
    (W &&& 0x0F000000 = 0x04000000 ∨ W &&& 0x0F000000 = 0x05000000 ∨ W &&& 0x0F000000 = 0x06000000 ∨
      W &&& 0x0F000000 = 0x07000000 ∨ W &&& 0x0C000000 = 0x00000000 ∨ W &&& 0x08000000 = 0x08000000)

/-- A few words written out from the encodings of 30_encoding.md section 1 (a sanity statement). -/
def Obligations.SampleWordsDecode : Prop :=
  decodeTableWord 32 0x04F07D01 = some (.sxcont 0 0xF0 0x7D 0x01) ∧
    decodeTableWord 32 0x3602F700 = some (.sxend2 3 0x02 0xF7 0x00) ∧
    decodeTableWord 32 0x05F7FFFF = some (.sxend1 0 0xF7 0xFF 0xFF) ∧
    decodeTableWord 32 0x074224F7 = some (.sxend3 0 0x42 0x24 0xF7) ∧
    decodeTableWord 32 0x09903C40 = some (.nonsxHi 0 1 0x90 0x3C 0x40)

/-- Decode and encode agree on level 1, both ways and with any bytes behind the group. -/
def Obligations.GroupsDecodeToWhatTheyEncode : Prop :=
  (∀ (c : Params) (i : Instr) (rest : List Byte), i.isGroup = true → decode (encode c i ++ rest) = .ok (i, rest)) ∧
    ∀ (c : Params) (b0 b1 b2 b3 : Byte), (decodeGroup b0 b1 b2 b3).isGroup = true ∧
      encode c (decodeGroup b0 b1 b2 b3) = [b0, b1, b2, b3]

/-- Decode and encode agree on level 2, both ways, for every admitted configuration; every message of 1 to 64 bytes
decodes to a well-formed operation. -/
def Obligations.MessagesDecodeToWhatTheyEncode : Prop :=
  ∀ c : Params, c.Admitted →
    (∀ m : Message, m.toInstr.wellFormed c = true → decodeMessage c (encode c m.toInstr) = m) ∧
    ∀ bytes : List Byte, encode c (decodeMessage c bytes).toInstr = bytes ∧
      (1 ≤ bytes.length → bytes.length ≤ 64 → (decodeMessage c bytes).toInstr.wellFormed c = true)

/-- The configured ids meet the constraints of 00_scope.md rule R8, whatever they are. -/
def Obligations.ConfiguredIdsAreAdmitted : Prop :=
  Config.platform.toParams.Admitted ∧ ∀ v : Id7, (idByte v).toNat ≤ 0x7F ∧ idByte v ≠ 0xF7 ∧ idByte v ≠ 0xF0

/-! The step, reset and the host's side. -/

/-- A step runs the group at the scan position; when fewer than 4 bytes are left it ends the scan, and the next pending
packet is delivered, or the machine is at rest (log entries 1 and 2). -/
def Obligations.StepRunsTheDecodedGroup : Prop :=
  ∀ s : State,
    (∀ i rest, decode (s.pkt.drop s.pos) = .ok (i, rest) → step s = exec i s) ∧
    (s.pos + 4 ≤ s.pkt.length → ∃ i rest, decode (s.pkt.drop s.pos) = .ok (i, rest)) ∧
    (s.pkt.length < s.pos + 4 → s.pending = [] → step s = .next { s with pkt := [], pos := 0 }) ∧
    (s.pkt.length < s.pos + 4 → ∀ p ps, s.pending = p :: ps →
      step s = .next { s with pkt := p, pos := 0, pending := ps })

/-- Every operation and every step ends in a next state (60_exceptions.md rule R186). The rule excepts a transaction
that never returns (93_implementation_defined.md U6); the model assumes that away: every storage transaction (log entry
7) and every outbound write (log entry 12) returns. -/
def Obligations.NothingStopsTheBlock : Prop :=
  (∀ (i : Instr) (s : State), ∃ t, exec i s = .next t) ∧ ∀ s : State, ∃ t, step s = .next t

/-- The group step of 41_reassembler.md rule R112, as the machine of `step` makes it. -/
def Obligations.ExecAgreesWithTheGroupStep : Prop :=
  ∀ (b0 b1 b2 b3 : Byte) (s : State),
    exec (decodeGroup b0 b1 b2 b3) s = .next (groupStep Config.platform b0 b1 b2 b3 s)

/-- What reset leaves (10_state.md rule R31): cursor 0 (the spec's decision D9), IDLE, no packet in progress. -/
def Obligations.ResetLeavesTheBlockIdle : Prop :=
  State.reset.cursor = 0 ∧ State.reset.rxState = .idle ∧ State.reset.AtRest ∧ State.reset.pending = [] ∧
    ∀ a, State.reset.storeByte Config.platform a = Config.platform.storeInitial a

/-- A reset of a running machine (70_reset_and_hazards.md rule R200): the partial message is discarded, the store is not
touched; one during a transaction leaves any value only in the bytes the transaction could touch
(93_implementation_defined.md U5; log entry 25). -/
def Obligations.RestartKeepsTheStore : Prop :=
  ∀ (c : Platform) (s : State),
    ((restart s).cursor = 0 ∧ (restart s).AtRest ∧ SameStore c s (restart s) ∧ (restart s).pending = s.pending ∧
      (restart s).draws = s.draws ∧ (restart s).trace = s.trace) ∧
    ∀ (page : Byte) (data : Page), page.toNat < 64 → Memory.wf c.storeInitial s.store →
      SameStore c s (restartDuring c (.read (pageAddress page)) s) ∧
      ∀ a, a < 16 * page.toNat ∨ 16 * page.toNat + 16 ≤ a →
        (restartDuring c (.write (pageAddress page) data) s).storeByte c a = s.storeByte c a

/-- A packet offered while one is in progress has no meaning; otherwise its scan begins (70_reset_and_hazards.md rule
R203; the refusal is the model's, log entry 26). -/
def Obligations.DeliveryWhileBusyIsRefused : Prop :=
  ∀ (p : List Byte) (s : State),
    (s.pos + 4 ≤ s.pkt.length → deliver p s = .refused .packetWhileBusy) ∧
    (s.pkt.length < s.pos + 4 → deliver p s = .next { s with pkt := p, pos := 0 })

/-- The two states of the Reassembler are a function of the cursor (10_state.md rule R23). -/
def Obligations.IdleExactlyWhenTheCursorIsZero : Prop :=
  ∀ s : State, (s.rxState = .idle ↔ s.cursor = 0) ∧ (s.rxState = .accumulating ↔ 0 < s.cursor)

/-! Invariants of the whole machine. -/

/-- The invariant of `State.Inv` holds at reset; that reset gives such a cursor is the spec's decision D9 (log entry
24). It is the base case of `EveryStepKeepsTheInvariant`. -/
def Obligations.ResetMeetsTheInvariant : Prop := State.reset.Inv Config.platform

/-- Every step keeps the invariant: the cursor is one of 0, 3, …, 63 (41_reassembler.md rule R129, the spec's own
inference), the scan position lies in the packet (10_state.md rule R28), the store is in canonical form. -/
def Obligations.EveryStepKeepsTheInvariant : Prop :=
  ∀ s t : State, s.Inv Config.platform → step s = .next t → t.Inv Config.platform

/-- Every packet, under every configuration and both advance settings, keeps the invariant. -/
def Obligations.EveryPacketKeepsTheInvariant : Prop :=
  ∀ (c : Platform) (pkt : List Byte) (s : State), s.Inv c → (rxPacket c pkt s).Inv c ∧ (rxPacket c pkt s).AtRest

/-- One step takes the cursor to 0, leaves it, or moves it by 3 (10_state.md rule R24; 41_reassembler.md rule
R127, the spec's own inference). -/
def Obligations.AStepMovesTheCursorByThreeOrToZero : Prop :=
  ∀ s t : State, step s = .next t →
    t.cursor = 0 ∨ (t.cursor = s.cursor + 3 ∧ t.cursor ≤ 64 ∧ t.trace = s.trace) ∨
      (t.cursor = s.cursor ∧ s.pkt.length < s.pos + 4)

/-- Every dispatched message has as many bytes as the cursor handed to `Dispatch` says, 1 to 64 (42_command_validator.md
rule R140; 41_reassembler.md rule R129 (c), the spec's own inference). A group step dispatches only for a terminal group
that fits, and then the message so far followed by the group's valid bytes, whose length is the cursor after the append. -/
def Obligations.EveryDispatchedMessageFits : Prop :=
  ∀ (c : Platform) (s : State),
    (∀ b0 b1 b2 b3 : Byte, ∃ es, (groupStep c b0 b1 b2 b3 s).trace = s.trace ++ es ∧
      ∀ m ∈ dispatchesIn es, ∃ k, inverseShape (cinOf b0) = some (k, true) ∧ s.cursor + k ≤ 64 ∧
        m.length = s.cursor + k ∧ m = s.message ++ [b1, b2, b3].take k) ∧
    ∀ pkt : List Byte, ∃ es, (rxPacket c pkt s).trace = s.trace ++ es ∧
      ∀ m ∈ dispatchesIn es, 1 ≤ m.length ∧ m.length ≤ 64

/-- Stale bytes of the buffer never matter (10_state.md rule R25, the spec's own inference): two machines that differ
only at or beyond the cursor differ only there after any packet too, so the relation is kept from packet to packet. -/
def Obligations.StaleBytesNeverMatter : Prop :=
  ∀ (c : Platform) (pkt : List Byte) (s : State) (buf : Vector Byte 64),
    buf.toList.take s.cursor = s.rxBuf.toList.take s.cursor →
    let t := rxPacket c pkt s
    let t' := rxPacket c pkt { s with rxBuf := buf }
    t'.rxBuf.toList.take t.cursor = t.rxBuf.toList.take t.cursor ∧ t'.cursor = t.cursor ∧ t'.message = t.message ∧
      t'.pkt = t.pkt ∧ t'.pos = t.pos ∧ t'.pending = t.pending ∧
      t'.store = t.store ∧ t'.draws = t.draws ∧ t'.trace = t.trace

/-! Whole packets. -/

/-- The round-trip law (40_sysex_codec.md rule R101, the spec's own inference up to 64 bytes): a message of 1 to 64
bytes, fragmented by `Encode` and delivered from an idle Reassembler in packets cut at any group boundaries, is
dispatched exactly once, whole; the effect is that of the dispatch, and the Reassembler is idle again. For both advance
settings and every cable. -/
def Obligations.RoundTripForEverySplitIntoPackets : Prop :=
  ∀ (c : Platform) (cable : Nibble) (msg : List Byte) (packets : List (List Byte)) (s : State),
    1 ≤ msg.length → msg.length ≤ 64 → s.cursor = 0 →
    packets.flatten = encodeGroups cable msg → (∀ p ∈ packets, p.length % 4 = 0) →
    let t := rxPackets c packets s
    t.cursor = 0 ∧ t.rxBuf.toList.take msg.length = msg ∧
      t.trace = (dispatch c msg s).trace ∧ t.store = (dispatch c msg s).store ∧ t.draws = (dispatch c msg s).draws ∧
      ∃ es, t.trace = s.trace ++ .dispatch msg :: es ∧ dispatchesIn es = []

/-- Groups do not depend on packet boundaries (41_reassembler.md rule R123, the spec's own inference), under the
decided advances, as long as no non-SysEx group ends a scan. -/
def Obligations.PacketBoundariesDoNotMatter : Prop :=
  ∀ (c : Platform) (p q : List Byte) (s : State), c.scanAdvance = .wholeGroup → p.length % 4 = 0 → OnlySysexGroups p →
    rxPacket c (p ++ q) s = rxPacket c q (rxPacket c p s)

/-- Everything behind a non-SysEx group of a packet is skipped (41_reassembler.md rule R118; after an abort that is the
spec's decision D18, log entry 18). -/
def Obligations.GroupsBehindANonSysexGroupAreSkipped : Prop :=
  ∀ (c : Platform) (p q : List Byte) (s : State), c.scanAdvance = .wholeGroup → p.length % 4 = 0 → ¬ OnlySysexGroups p →
    rxPacket c (p ++ q) s = rxPacket c p s

/-- A packet that begins with a non-SysEx group forces the Reassembler idle, with no dispatch, no transaction and no
reply, whatever follows it (70_reset_and_hazards.md rule R205, the spec's own inference). -/
def Obligations.ANonSysexGroupResynchronises : Prop :=
  ∀ (c : Platform) (b0 b1 b2 b3 : Byte) (rest : List Byte) (s : State), inverseShape (cinOf b0) = none →
    rxPacket c (b0 :: b1 :: b2 :: b3 :: rest) s = { s with
      cursor := 0
      pkt := []
      pos := 0
      trace := if s.cursor = 0 then s.trace else s.trace ++ [.abort .framingCin] }

/-- Bytes beyond the last whole group are never read (41_reassembler.md rule R126; the spec's decision D17, log entry
17). -/
def Obligations.TrailingBytesAreNeverRead : Prop :=
  ∀ (c : Platform) (p extra : List Byte) (s : State), c.scanAdvance = .wholeGroup → p.length % 4 = 0 →
    extra.length < 4 → rxPacket c (p ++ extra) s = rxPacket c p s

/-- No cable demultiplexing (41_reassembler.md rule R124; the spec's decision D26, log entry 22): two packets that
differ only in the cable numbers of their groups have the same effect. -/
def Obligations.CablesFeedOneBuffer : Prop :=
  ∀ (c : Platform) (p p' : List Byte) (s : State), c.scanAdvance = .wholeGroup → p'.length = p.length →
    (∀ k < p.length, if k % 4 = 0 then cinOf (p'.getD k 0) = cinOf (p.getD k 0) else p'.getD k 0 = p.getD k 0) →
    rxPacket c p' s = rxPacket c p s

/-- Under the document's literal advances a message whose last group is short hides every group behind it in its packet
(41_reassembler.md rule R128, the spec's own inference), since the padding byte is read as a header. -/
def Obligations.LiteralAdvancesLoseTheGroupsBehind : Prop :=
  ∀ (c : Platform) (cable : Nibble) (msg rest : List Byte) (s : State), c.scanAdvance = .documentLiteral →
    1 ≤ msg.length → msg.length ≤ 64 → msg.length % 3 ≠ 0 → s.cursor = 0 →
    rxPacket c (encodeGroups cable msg ++ rest) s = rxPacket c (encodeGroups cable msg) s

/-- No reply without a storage success (60_exceptions.md rule R189, the spec's own inference), where
`REPLY_ON_STORAGE_FAIL` is `NONE` (the spec's decision D5, log entry 5): every outbound write that packets cause comes
right after a storage transaction that answered `ok`. In particular, a store that never answers `ok` causes none. -/
def Obligations.NoReplyWithoutAStorageSuccess : Prop :=
  ∀ (c : Platform) (packets : List (List Byte)) (s : State), c.replyOnStorageFail = .noReply →
    (∃ es, (rxPackets c packets s).trace = s.trace ++ es ∧
      ∀ k b x, es[k]? = some (.txWrite b x) → ∃ j q, k = j + 1 ∧ es[j]? = some (.storage q .ok)) ∧
    ((∀ n q m, c.storageStatus n q m = .fail) → txIn (rxPackets c packets s).trace = txIn s.trace)

/-- Write then dump: on a healthy store the dump of a page just written carries the bytes of the write request
(20_memory.md rule R53 on the reference store model of rule R50, the spec's decision D12, log entry 8). -/
def Obligations.ADumpReturnsWhatWasWritten : Prop :=
  ∀ (c : Platform) (page : Byte) (data : Page) (s : State), Healthy c → c.toParams.Admitted → page.toNat < 64 →
    Memory.wf c.storeInitial s.store → s.cursor = 0 →
    let t := rxPackets c
      [encodeGroups 0 (encode c.toParams (.writePage (page :: splitPage data))),
        encodeGroups 0 (encode c.toParams (.dumpPage [page]))] s
    storageIn t.trace = storageIn s.trace ++ [.write (pageAddress page) data, .read (pageAddress page)] ∧
      txIn t.trace = txIn s.trace ++
        [encodeGroups c.txCable (writeReply c.toParams), encodeGroups c.txCable (dumpReply c.toParams page data)]

/-- Erase then dump: on a healthy store every page dumped after an erase is the erase pattern (the reference store model
of 20_memory.md rule R50, the spec's decision D12, log entry 8). -/
def Obligations.ADumpAfterAnEraseIsThePattern : Prop :=
  ∀ (c : Platform) (page : Byte) (s : State), Healthy c → c.toParams.Admitted → page.toNat < 64 → s.cursor = 0 →
    let t := rxPackets c
      [encodeGroups 0 (encode c.toParams (.eraseAll [0x42, 0x24])),
        encodeGroups 0 (encode c.toParams (.dumpPage [page]))] s
    storageIn t.trace = storageIn s.trace ++ [.eraseAll, .read (pageAddress page)] ∧
      txIn t.trace = txIn s.trace ++
        [encodeGroups c.txCable (eraseReply c.toParams),
          encodeGroups c.txCable (dumpReply c.toParams page (Vector.replicate 16 c.erasePattern))]

/-- Running the machine of `step` from a point of rest delivers the pending packets one after another, each to
completion, and comes to rest (00_scope.md rule R10, 70_reset_and_hazards.md rule R202). The step of one group is the
model's choice (log entries 1 and 2), the end of a run the spec's decision D23 (log entry 27), and that every
transaction and every outbound write returns is the model's assumption (70_reset_and_hazards.md rule R212, U6; log
entries 7 and 12). -/
def Obligations.StepsRunEveryPacketToCompletion : Prop :=
  ∀ s : State, s.AtRest → ∃ k, Sys2Proof.core.run k s =
    .next { rxPackets Config.platform s.pending s with pending := [] }
end

