-- ==== Sys2Proof/Laws/State.lean ====
section
/-! SUPPORT. One lemma per field per update: what each named update leaves alone and what it sets. -/

namespace Sys2Proof.Machine

@[simp] theorem abort_rxBuf (r : AbortReason) (s : State) : (abort r s).rxBuf = s.rxBuf := rfl
@[simp] theorem abort_cursor (r : AbortReason) (s : State) : (abort r s).cursor = s.cursor := rfl
@[simp] theorem abort_pkt (r : AbortReason) (s : State) : (abort r s).pkt = s.pkt := rfl
@[simp] theorem abort_pos (r : AbortReason) (s : State) : (abort r s).pos = s.pos := rfl
@[simp] theorem abort_pending (r : AbortReason) (s : State) : (abort r s).pending = s.pending := rfl
@[simp] theorem abort_store (r : AbortReason) (s : State) : (abort r s).store = s.store := rfl
@[simp] theorem abort_draws (r : AbortReason) (s : State) : (abort r s).draws = s.draws := rfl
@[simp] theorem abort_trace (r : AbortReason) (s : State) : (abort r s).trace = s.trace ++ [.abort r] := rfl

@[simp] theorem resetCursor_rxBuf (s : State) : (resetCursor s).rxBuf = s.rxBuf := rfl
@[simp] theorem resetCursor_cursor (s : State) : (resetCursor s).cursor = 0 := rfl
@[simp] theorem resetCursor_pkt (s : State) : (resetCursor s).pkt = s.pkt := rfl
@[simp] theorem resetCursor_pos (s : State) : (resetCursor s).pos = s.pos := rfl
@[simp] theorem resetCursor_pending (s : State) : (resetCursor s).pending = s.pending := rfl
@[simp] theorem resetCursor_store (s : State) : (resetCursor s).store = s.store := rfl
@[simp] theorem resetCursor_draws (s : State) : (resetCursor s).draws = s.draws := rfl
@[simp] theorem resetCursor_trace (s : State) : (resetCursor s).trace = s.trace := rfl

@[simp] theorem advance_rxBuf (adv : Nat) (s : State) : (advance adv s).rxBuf = s.rxBuf := rfl
@[simp] theorem advance_cursor (adv : Nat) (s : State) : (advance adv s).cursor = s.cursor := rfl
@[simp] theorem advance_pkt (adv : Nat) (s : State) : (advance adv s).pkt = s.pkt := rfl
@[simp] theorem advance_pos (adv : Nat) (s : State) : (advance adv s).pos = s.pos + adv := rfl
@[simp] theorem advance_pending (adv : Nat) (s : State) : (advance adv s).pending = s.pending := rfl
@[simp] theorem advance_store (adv : Nat) (s : State) : (advance adv s).store = s.store := rfl
@[simp] theorem advance_draws (adv : Nat) (s : State) : (advance adv s).draws = s.draws := rfl
@[simp] theorem advance_trace (adv : Nat) (s : State) : (advance adv s).trace = s.trace := rfl

@[simp] theorem stopScan_rxBuf (s : State) : (stopScan s).rxBuf = s.rxBuf := rfl
@[simp] theorem stopScan_cursor (s : State) : (stopScan s).cursor = s.cursor := rfl
@[simp] theorem stopScan_pkt (s : State) : (stopScan s).pkt = s.pkt := rfl
@[simp] theorem stopScan_pos (s : State) : (stopScan s).pos = s.pkt.length := rfl
@[simp] theorem stopScan_pending (s : State) : (stopScan s).pending = s.pending := rfl
@[simp] theorem stopScan_store (s : State) : (stopScan s).store = s.store := rfl
@[simp] theorem stopScan_draws (s : State) : (stopScan s).draws = s.draws := rfl
@[simp] theorem stopScan_trace (s : State) : (stopScan s).trace = s.trace := rfl

@[simp] theorem beginPacket_rxBuf (p : List Byte) (s : State) : (beginPacket p s).rxBuf = s.rxBuf := rfl
@[simp] theorem beginPacket_cursor (p : List Byte) (s : State) : (beginPacket p s).cursor = s.cursor := rfl
@[simp] theorem beginPacket_pkt (p : List Byte) (s : State) : (beginPacket p s).pkt = p := rfl
@[simp] theorem beginPacket_pos (p : List Byte) (s : State) : (beginPacket p s).pos = 0 := rfl
@[simp] theorem beginPacket_pending (p : List Byte) (s : State) : (beginPacket p s).pending = s.pending := rfl
@[simp] theorem beginPacket_store (p : List Byte) (s : State) : (beginPacket p s).store = s.store := rfl
@[simp] theorem beginPacket_draws (p : List Byte) (s : State) : (beginPacket p s).draws = s.draws := rfl
@[simp] theorem beginPacket_trace (p : List Byte) (s : State) : (beginPacket p s).trace = s.trace := rfl

@[simp] theorem transmit_rxBuf (c : Platform) (b : List Byte) (s : State) : (transmit c b s).rxBuf = s.rxBuf := rfl
@[simp] theorem transmit_cursor (c : Platform) (b : List Byte) (s : State) : (transmit c b s).cursor = s.cursor := rfl
@[simp] theorem transmit_pkt (c : Platform) (b : List Byte) (s : State) : (transmit c b s).pkt = s.pkt := rfl
@[simp] theorem transmit_pos (c : Platform) (b : List Byte) (s : State) : (transmit c b s).pos = s.pos := rfl
@[simp] theorem transmit_pending (c : Platform) (b : List Byte) (s : State) : (transmit c b s).pending = s.pending := rfl
@[simp] theorem transmit_store (c : Platform) (b : List Byte) (s : State) : (transmit c b s).store = s.store := rfl
@[simp] theorem transmit_draws (c : Platform) (b : List Byte) (s : State) : (transmit c b s).draws = s.draws + 1 := rfl
@[simp] theorem transmit_trace (c : Platform) (b : List Byte) (s : State) : (transmit c b s).trace = s.trace ++ [.txWrite b (c.txStatus s.draws b)] := rfl

@[simp] theorem storageCall_rxBuf (c : Platform) (q : StorageRequest) (s : State) : ((storageCall c q s).2).rxBuf = s.rxBuf := rfl
@[simp] theorem storageCall_cursor (c : Platform) (q : StorageRequest) (s : State) : ((storageCall c q s).2).cursor = s.cursor := rfl
@[simp] theorem storageCall_pkt (c : Platform) (q : StorageRequest) (s : State) : ((storageCall c q s).2).pkt = s.pkt := rfl
@[simp] theorem storageCall_pos (c : Platform) (q : StorageRequest) (s : State) : ((storageCall c q s).2).pos = s.pos := rfl
@[simp] theorem storageCall_pending (c : Platform) (q : StorageRequest) (s : State) : ((storageCall c q s).2).pending = s.pending := rfl
@[simp] theorem storageCall_store (c : Platform) (q : StorageRequest) (s : State) : ((storageCall c q s).2).store = storeAfter c s.draws q (c.storageStatus s.draws q s.store) s.store := rfl
@[simp] theorem storageCall_draws (c : Platform) (q : StorageRequest) (s : State) : ((storageCall c q s).2).draws = s.draws + 1 := rfl
@[simp] theorem storageCall_trace (c : Platform) (q : StorageRequest) (s : State) : ((storageCall c q s).2).trace = s.trace ++ [.storage q (c.storageStatus s.draws q s.store)] := rfl

@[simp] theorem storageCall_status (c : Platform) (q : StorageRequest) (s : State) :
    (storageCall c q s).1 = c.storageStatus s.draws q s.store := rfl

@[simp] theorem restart_rxBuf (s : State) : (restart s).rxBuf = State.reset.rxBuf := rfl
@[simp] theorem restart_cursor (s : State) : (restart s).cursor = 0 := rfl
@[simp] theorem restart_pkt (s : State) : (restart s).pkt = [] := rfl
@[simp] theorem restart_pos (s : State) : (restart s).pos = 0 := rfl
@[simp] theorem restart_pending (s : State) : (restart s).pending = s.pending := rfl
@[simp] theorem restart_store (s : State) : (restart s).store = s.store := rfl
@[simp] theorem restart_draws (s : State) : (restart s).draws = s.draws := rfl
@[simp] theorem restart_trace (s : State) : (restart s).trace = s.trace := rfl

@[simp] theorem State.withFetchWord_rxBuf (s : State) (nbits w : Nat) : (s.withFetchWord nbits w).rxBuf = s.rxBuf := rfl
@[simp] theorem State.withFetchWord_cursor (s : State) (nbits w : Nat) : (s.withFetchWord nbits w).cursor = s.cursor := rfl
@[simp] theorem State.withFetchWord_pkt (s : State) (nbits w : Nat) : (s.withFetchWord nbits w).pkt = groupWordBytes (tableWord nbits w) := rfl
@[simp] theorem State.withFetchWord_pos (s : State) (nbits w : Nat) : (s.withFetchWord nbits w).pos = 0 := rfl
@[simp] theorem State.withFetchWord_pending (s : State) (nbits w : Nat) : (s.withFetchWord nbits w).pending = s.pending := rfl
@[simp] theorem State.withFetchWord_store (s : State) (nbits w : Nat) : (s.withFetchWord nbits w).store = s.store := rfl
@[simp] theorem State.withFetchWord_draws (s : State) (nbits w : Nat) : (s.withFetchWord nbits w).draws = s.draws := rfl
@[simp] theorem State.withFetchWord_trace (s : State) (nbits w : Nat) : (s.withFetchWord nbits w).trace = s.trace := rfl

end Sys2Proof.Machine
end

