-- ==== Sys2Proof/Laws/Memory.lean ====
section
/-! SUPPORT. The store: what each memory operation reads as, and that each keeps the canonical form. -/

namespace Sys2Proof.Machine

/-- The tail of a memory in canonical form is in canonical form. -/
theorem Memory.wf_tail (d : Nat → Byte) (p : Host.Cell) (m : Memory) (h : Memory.wf d (p :: m)) : Memory.wf d m :=
  ⟨(List.pairwise_cons.mp h.1).2, fun q hq => h.2 q (List.mem_cons_of_mem _ hq)⟩

/-- An address below every listed address reads as unlisted. -/
theorem Memory.read_below (d : Nat → Byte) (m : Memory) (a : Nat) (h : ∀ p ∈ m, a < p.1) :
    Memory.read d m a = d a := by
  induction m with
  | nil => rfl
  | cons p m ih =>
    obtain ⟨k, v⟩ := p
    have hk : a < k := h (k, v) (by simp)
    rw [Memory.read, if_neg (by omega)]
    exact ih fun q hq => h q (List.mem_cons_of_mem _ hq)

/-- A write reads back, and leaves every other address alone. -/
theorem Memory.read_write (d : Nat → Byte) (m : Memory) (a : Nat) (b : Byte) (h : Memory.wf d m) (x : Nat) :
    Memory.read d (Memory.write d m a b) x = if x = a then b else Memory.read d m x := by
  induction m with
  | nil =>
    by_cases hb : b = d a
    · by_cases hx : x = a <;> simp [Memory.write, Memory.read, hb, hx]
    · by_cases hx : x = a
      · simp [Memory.write, Memory.read, hb, hx]
      · simp [Memory.write, Memory.read, hb, hx, Ne.symm hx]
  | cons p m ih =>
    obtain ⟨k, v⟩ := p
    have ih := ih (Memory.wf_tail d _ m h)
    have hlow : ∀ q ∈ m, k < q.1 := fun q hq => (List.pairwise_cons.mp h.1).1 q hq
    rw [Memory.write]
    split
    case isTrue hak =>
      have hra : Memory.read d ((k, v) :: m) a = d a :=
        Memory.read_below d _ a (by
          intro q hq
          rcases List.mem_cons.mp hq with rfl | hq
          · exact hak
          · have := hlow q hq; omega)
      split
      case isTrue hb =>
        by_cases hx : x = a
        · rw [hx, if_pos rfl, hra, hb]
        · rw [if_neg hx]
      case isFalse hb =>
        by_cases hx : x = a
        · simp [Memory.read, hx]
        · rw [Memory.read, if_neg (Ne.symm hx), if_neg hx]
    case isFalse hak =>
      split
      case isTrue hka =>
        subst hka
        split
        case isTrue hb =>
          by_cases hx : x = a
          · rw [hx, if_pos rfl, hb]
            exact Memory.read_below d m a hlow
          · rw [if_neg hx, Memory.read, if_neg (Ne.symm hx)]
        case isFalse hb =>
          by_cases hx : x = a
          · simp [Memory.read, hx]
          · simp [Memory.read, hx, Ne.symm hx]
      case isFalse hka =>
        rw [Memory.read]
        split
        case isTrue hkx =>
          rw [if_neg (by omega), Memory.read, if_pos hkx]
        case isFalse hkx =>
          rw [ih]
          conv_rhs => rw [Memory.read, if_neg hkx]

/-- Every cell after a write is the written one or an old one. -/
theorem Memory.mem_write (d : Nat → Byte) (m : Memory) (a : Nat) (b : Byte) (p : Host.Cell)
    (h : p ∈ Memory.write d m a b) : (p = (a, b) ∧ b ≠ d a) ∨ p ∈ m := by
  induction m with
  | nil =>
    rw [Memory.write] at h
    split at h
    · cases h
    · rename_i hb
      exact .inl ⟨by simpa using h, hb⟩
  | cons q m ih =>
    obtain ⟨k, v⟩ := q
    rw [Memory.write] at h
    split at h
    · split at h
      · exact .inr h
      · rename_i hb
        rcases List.mem_cons.mp h with h | h
        · exact .inl ⟨h, hb⟩
        · exact .inr h
    · split at h
      · split at h
        · exact .inr (List.mem_cons_of_mem _ h)
        · rename_i hb
          rcases List.mem_cons.mp h with h | h
          · exact .inl ⟨h, hb⟩
          · exact .inr (List.mem_cons_of_mem _ h)
      · rcases List.mem_cons.mp h with h | h
        · exact .inr (h ▸ List.mem_cons_self)
        · rcases ih h with h | h
          · exact .inl h
          · exact .inr (List.mem_cons_of_mem _ h)

/-- A write keeps the addresses rising. -/
theorem Memory.write_pairwise (d : Nat → Byte) (m : Memory) (a : Nat) (b : Byte)
    (h : m.Pairwise fun p q => p.1 < q.1) : (Memory.write d m a b).Pairwise fun p q => p.1 < q.1 := by
  induction m with
  | nil =>
    rw [Memory.write]
    split <;> simp
  | cons q m ih =>
    obtain ⟨k, v⟩ := q
    obtain ⟨hlow, hm⟩ := List.pairwise_cons.mp h
    rw [Memory.write]
    split
    case isTrue hak =>
      split
      · exact h
      · refine List.pairwise_cons.mpr ⟨fun q hq => ?_, h⟩
        rcases List.mem_cons.mp hq with rfl | hq
        · exact hak
        · have := hlow q hq; simp only at this ⊢; omega
    case isFalse hak =>
      split
      case isTrue hka =>
        subst hka
        split
        · exact hm
        · exact List.pairwise_cons.mpr ⟨hlow, hm⟩
      case isFalse hka =>
        refine List.pairwise_cons.mpr ⟨fun q hq => ?_, ih hm⟩
        rcases Memory.mem_write d m a b q hq with ⟨rfl, _⟩ | hq
        · simp only; omega
        · exact hlow q hq

/-- A write inside the store keeps the canonical form. -/
theorem Memory.wf_write (d : Nat → Byte) (m : Memory) (a : Nat) (b : Byte) (h : Memory.wf d m)
    (ha : a < 1024) : Memory.wf d (Memory.write d m a b) := by
  refine ⟨Memory.write_pairwise d m a b h.1, fun p hp => ?_⟩
  rcases Memory.mem_write d m a b p hp with ⟨rfl, hb⟩ | hp
  · exact ⟨ha, hb⟩
  · exact h.2 p hp

/-- Bytes written at rising addresses keep the canonical form. -/
theorem Memory.wf_writeBytes (d : Nat → Byte) (bs : List Byte) (m : Memory) (a : Nat) (h : Memory.wf d m)
    (ha : a + bs.length ≤ 1024) : Memory.wf d (Memory.writeBytes d m a bs) := by
  induction bs generalizing m a with
  | nil => exact h
  | cons b bs ih =>
    rw [List.length_cons] at ha
    exact ih (Memory.write d m a b) (a + 1) (Memory.wf_write d m a b h (by omega)) (by omega)

/-- Bytes written at rising addresses read back in order, and every other address is left alone. -/
theorem Memory.read_writeBytes (d : Nat → Byte) (bs : List Byte) (m : Memory) (a : Nat) (h : Memory.wf d m)
    (ha : a + bs.length ≤ 1024) (x : Nat) :
    Memory.read d (Memory.writeBytes d m a bs) x =
      if a ≤ x then (bs[x - a]?).getD (Memory.read d m x) else Memory.read d m x := by
  induction bs generalizing m a with
  | nil => simp [Memory.writeBytes]
  | cons b bs ih =>
    rw [List.length_cons] at ha
    rw [Memory.writeBytes, ih (Memory.write d m a b) (a + 1) (Memory.wf_write d m a b h (by omega)) (by omega),
      Memory.read_write d m a b h]
    by_cases hxa : x = a
    · subst hxa
      simp
    · by_cases hlt : a ≤ x
      · obtain ⟨j, rfl⟩ : ∃ j, x = a + 1 + j := ⟨x - (a + 1), by omega⟩
        have h1 : a + 1 + j - a = j + 1 := by omega
        have h2 : a + 1 + j - (a + 1) = j := by omega
        simp [hxa, hlt, h1, h2]
      · rw [if_neg (by omega), if_neg hxa, if_neg hlt]

/-- A cell of a tabulated store. -/
theorem Memory.mem_tabulate (d f : Nat → Byte) (p : Host.Cell) (h : p ∈ Memory.tabulate d f) :
    p.1 < 1024 ∧ p.2 = f p.1 ∧ p.2 ≠ d p.1 := by
  obtain ⟨a, ha, hp⟩ := List.mem_filterMap.mp h
  split at hp
  · cases hp
  · rename_i hne
    cases hp
    exact ⟨List.mem_range.mp ha, rfl, hne⟩

/-- A tabulated store is in canonical form. -/
theorem Memory.wf_tabulate (d f : Nat → Byte) : Memory.wf d (Memory.tabulate d f) := by
  refine ⟨?_, fun p hp => ⟨(Memory.mem_tabulate d f p hp).1, (Memory.mem_tabulate d f p hp).2.2⟩⟩
  refine List.Pairwise.filterMap (R := fun x y : Nat => x < y) _ ?_ List.pairwise_lt_range
  intro x y hxy p hp q hq
  split at hp
  · cases hp
  · split at hq
    · cases hq
    · cases hp
      cases hq
      exact hxy

/-- Reading a list of cells that `f` computes from rising addresses. -/
theorem Memory.read_filterMap (d f : Nat → Byte) (l : List Nat) (x : Nat) :
    Memory.read d (l.filterMap fun a => if f a = d a then none else some (a, f a)) x =
      if x ∈ l then f x else d x := by
  induction l with
  | nil => rfl
  | cons a l ih =>
    by_cases hf : f a = d a
    · rw [List.filterMap_cons_none (by simp [hf]), ih]
      by_cases hx : x = a
      · subst hx
        simp [hf]
      · simp [hx]
    · rw [List.filterMap_cons_some (b := (a, f a)) (by simp [hf]), Memory.read, ih]
      by_cases hx : x = a
      · subst hx
        simp
      · simp [hx, Ne.symm hx]

/-- A tabulated store reads as the function inside the store and as unlisted outside. -/
theorem Memory.read_tabulate (d f : Nat → Byte) (x : Nat) :
    Memory.read d (Memory.tabulate d f) x = if x < 1024 then f x else d x := by
  rw [Memory.tabulate, Memory.read_filterMap]
  simp only [List.mem_range]

/-- Inside the store: the page ends at or below 1024. -/
theorem inStore_iff (addr : Addr) : inStore addr = true ↔ addr.toNat + 16 ≤ 1024 := by
  unfold inStore
  exact decide_eq_true_iff

/-- A transaction keeps the canonical form of the store, whatever its answer and its address. -/
theorem storeAfter_wf (c : Platform) (n : Nat) (q : StorageRequest) (st : Status) (m : Memory)
    (h : Memory.wf c.storeInitial m) : Memory.wf c.storeInitial (storeAfter c n q st m) := by
  cases q with
  | read addr =>
    simp only [storeAfter]
    split
    · exact h
    · exact Memory.wf_tabulate _ _
  | write addr data =>
    simp only [storeAfter]
    split
    case isTrue hin =>
      have hin : addr.toNat + 16 ≤ 1024 := (inStore_iff addr).mp hin
      cases st
      · exact Memory.wf_writeBytes _ _ _ _ h (by rw [Vector.length_toList]; exact hin)
      · exact Memory.wf_writeBytes _ _ _ _ h (by rw [List.length_map, List.length_range]; exact hin)
    case isFalse => exact Memory.wf_tabulate _ _
  | eraseAll =>
    cases st
    · exact Memory.wf_tabulate _ _
    · exact Memory.wf_tabulate _ _

/-- The reset store is in canonical form. -/
theorem reset_store_wf (c : Platform) : Memory.wf c.storeInitial State.reset.store := by
  simp [State.reset, Memory.wf]

end Sys2Proof.Machine
end

