-- ==== Sys2Proof/Laws/Ops.lean ====
section
/-! SUPPORT. One lemma per shared operation, saying once what it does; later proofs cite these instead of unfolding. -/

namespace Sys2Proof.Machine

/-! Being unchanged. -/

theorem SameBlock.refl (s : State) : SameBlock s s := ⟨rfl, rfl, rfl, rfl, rfl⟩

theorem SameBlock.trans {s t u : State} (h : SameBlock s t) (g : SameBlock t u) : SameBlock s u :=
  ⟨g.1.trans h.1, g.2.1.trans h.2.1, g.2.2.1.trans h.2.2.1, g.2.2.2.1.trans h.2.2.2.1,
    g.2.2.2.2.trans h.2.2.2.2⟩

theorem SameStore.of_eq (c : Platform) {s t : State} (h : t.store = s.store) : SameStore c s t := by
  intro a
  simp [State.storeByte, h]

/-! The receive buffer. -/

/-- Bytes written from index `k` on stand there in order, and every other byte is left alone. -/
theorem writeRx_getElem (vs : List Byte) (buf : Vector Byte 64) (k j : Nat) (hj : j < 64) :
    (writeRx buf k vs)[j] = if k ≤ j then (vs[j - k]?).getD buf[j] else buf[j] := by
  induction vs generalizing buf k with
  | nil => simp [writeRx]
  | cons v vs ih =>
    rw [writeRx, ih, Vector.getElem_setIfInBounds hj]
    by_cases hkj : k = j
    · subst hkj
      simp
    · by_cases hle : k ≤ j
      · obtain ⟨i, rfl⟩ : ∃ i, j = k + 1 + i := ⟨j - (k + 1), by omega⟩
        have h1 : k + 1 + i - k = i + 1 := by omega
        have h2 : k + 1 + i - (k + 1) = i := by omega
        simp [h1, h2, hle, hkj]
      · rw [if_neg (by omega), if_neg hkj, if_neg hle]

/-- The first `k` bytes are not touched by a write from index `k` on, and the written ones follow them. -/
theorem take_writeRx (vs : List Byte) (buf : Vector Byte 64) (k : Nat) (h : k + vs.length ≤ 64) :
    (writeRx buf k vs).toList.take (k + vs.length) = buf.toList.take k ++ vs := by
  apply List.ext_getElem
  · simp
    omega
  · intro i h1 h2
    have hi : i < 64 := by
      simp at h1
      omega
    have hi' : i < k + vs.length := by
      simp at h1
      omega
    rw [List.getElem_take, Vector.getElem_toList, writeRx_getElem vs buf k i hi]
    by_cases hk : k ≤ i
    · have hv : i - k < vs.length := by omega
      rw [if_pos hk, List.getElem_append_right (by simp; omega)]
      simp [hv, Nat.min_eq_left (show k ≤ 64 by omega)]
    · rw [if_neg hk, List.getElem_append_left (by simp; omega)]
      simp

/-- `Append` when the bytes fit (41_reassembler.md rule R120). -/
theorem append_done (vs : List Byte) (s : State) (h : s.cursor + vs.length ≤ 64) :
    append vs s = (true, { s with rxBuf := writeRx s.rxBuf s.cursor vs, cursor := s.cursor + vs.length }) := by
  unfold append
  rw [if_neg (Nat.not_lt.mpr h)]

/-- `Append` when they do not (41_reassembler.md rule R119). -/
theorem append_overflow (vs : List Byte) (s : State) (h : 64 < s.cursor + vs.length) :
    append vs s = (false, abort .overflow (resetCursor s)) := by
  unfold append
  rw [if_pos h]

/-! Interfaces. -/

theorem storageCall_block (c : Platform) (q : StorageRequest) (s : State) : SameBlock s (storageCall c q s).2 :=
  ⟨rfl, rfl, rfl, rfl, rfl⟩

/-- `emit` of a message that is not empty is one outbound write of its groups (40_sysex_codec.md rule R98). -/
theorem emit_cons (c : Platform) (msg : List Byte) (s : State) (h : msg ≠ []) :
    emit c msg s = transmit c (encodeGroups c.txCable msg) s := by
  unfold emit
  rw [if_neg h]

/-- `emit` changes only the two fields that record answers. -/
theorem emit_cases (c : Platform) (msg : List Byte) (s : State) :
    emit c msg s = s ∨ emit c msg s = transmit c (encodeGroups c.txCable msg) s := by
  unfold emit
  split
  · exact .inl rfl
  · exact .inr rfl

theorem emit_block (c : Platform) (msg : List Byte) (s : State) : SameBlock s (emit c msg s) := by
  rcases emit_cases c msg s with h | h <;> rw [h]
  · exact SameBlock.refl s
  · exact ⟨rfl, rfl, rfl, rfl, rfl⟩

@[simp] theorem emit_store (c : Platform) (msg : List Byte) (s : State) : (emit c msg s).store = s.store := by
  rcases emit_cases c msg s with h | h <;> rw [h]
  rfl

theorem acknowledge_block (c : Platform) (r : List Byte) (st : Status) (s : State) :
    SameBlock s (acknowledge c r st s) := by
  unfold acknowledge
  split
  · exact emit_block c r s
  · exact ⟨rfl, rfl, rfl, rfl, rfl⟩

@[simp] theorem acknowledge_store (c : Platform) (r : List Byte) (st : Status) (s : State) :
    (acknowledge c r st s).store = s.store := by
  unfold acknowledge
  split
  · exact emit_store c r s
  · rfl

/-- A write or erase that is acknowledged (42_command_validator.md rule R152). -/
theorem acknowledge_sends (c : Platform) (r : List Byte) (st : Status) (s : State)
    (h : st = .ok ∨ c.replyOnStorageFail = .ackAnyway) : acknowledge c r st s = emit c r s := by
  unfold acknowledge
  rw [if_pos h]

/-- A write or erase that is not acknowledged (42_command_validator.md rule R152). -/
theorem acknowledge_silent (c : Platform) (r : List Byte) (st : Status) (s : State)
    (h : ¬(st = .ok ∨ c.replyOnStorageFail = .ackAnyway)) : acknowledge c r st s = abort .storageFail s := by
  unfold acknowledge
  rw [if_neg h]

/-- A transaction whose status is then acknowledged, as `ERASE_ALL` and `WRITE_PAGE` make it. -/
theorem storageCall_acknowledged (c : Platform) (q : StorageRequest) (r : List Byte) (s : State) (hr : r ≠ []) :
    Acknowledged c q r s (acknowledge c r (c.storageStatus s.draws q s.store) (storageCall c q s).2) := by
  refine ⟨(storageCall_block c q s).trans (acknowledge_block c r _ _), ?_⟩
  by_cases h : c.storageStatus s.draws q s.store = .ok ∨ c.replyOnStorageFail = .ackAnyway
  · rw [acknowledge_sends c r _ _ h, emit_cons c r _ hr, if_pos h, if_pos h]
    simp [transmit, replyEvent, storageCall]
  · rw [acknowledge_silent c r _ _ h, if_neg h, if_neg h]
    simp [abort, storageCall]

/-! What each command does once its parameters are there. -/

/-- `DUMP_PAGE` with a page (42_command_validator.md rule R147). -/
theorem dumpPage_cons (c : Platform) (page : Byte) (rest : List Byte) (s : State) :
    dumpPage c (page :: rest) s =
      match c.storageStatus s.draws (.read (pageAddress page)) s.store with
      | .ok => emit c (dumpReply c.toParams page (readPage c s.draws (pageAddress page) s.store))
          (storageCall c (.read (pageAddress page)) s).2
      | .fail => abort .storageFail (storageCall c (.read (pageAddress page)) s).2 := rfl

/-- `ERASE_ALL` with the magic (42_command_validator.md rule R148). -/
theorem eraseAll_magic (c : Platform) (rest : List Byte) (s : State) :
    eraseAll c (Config.eraseMagic0 :: Config.eraseMagic1 :: rest) s =
      acknowledge c (eraseReply c.toParams) (c.storageStatus s.draws .eraseAll s.store)
        (storageCall c .eraseAll s).2 := rfl

/-- `WRITE_PAGE` with enough parameters (42_command_validator.md rule R149). -/
theorem writePage_cons (c : Platform) (page : Byte) (nibbles : List Byte) (s : State) (h : 32 ≤ nibbles.length) :
    writePage c (page :: nibbles) s =
      acknowledge c (writeReply c.toParams)
        (c.storageStatus s.draws (.write (pageAddress page) (joinPage nibbles)) s.store)
        (storageCall c (.write (pageAddress page) (joinPage nibbles)) s).2 := by
  have hl : ¬ (page :: nibbles).length < Config.writeParamMin := Nat.not_lt.mpr (Nat.succ_le_succ h)
  unfold writePage
  rw [if_neg hl]
  rfl

/-! The level-2 operations leave the block alone and keep the store canonical. -/

/-- The store after an operation is the one before it, or the one a transaction left. -/
def StoreStep (c : Platform) (s t : State) : Prop :=
  t.store = s.store ∨ ∃ n q st, t.store = storeAfter c n q st s.store

theorem StoreStep.wf {c : Platform} {s t : State} (h : StoreStep c s t) (hs : Memory.wf c.storeInitial s.store) :
    Memory.wf c.storeInitial t.store := by
  rcases h with h | ⟨n, q, st, h⟩
  · rw [h]
    exact hs
  · rw [h]
    exact storeAfter_wf c n q st s.store hs

theorem StoreStep.call (c : Platform) (q : StorageRequest) (s : State) : StoreStep c s (storageCall c q s).2 :=
  .inr ⟨s.draws, q, c.storageStatus s.draws q s.store, rfl⟩

theorem StoreStep.congr {c : Platform} {s t u : State} (h : StoreStep c s t) (hu : u.store = t.store) :
    StoreStep c s u := by
  unfold StoreStep at *
  rw [hu]
  exact h

theorem dumpPage_steps (c : Platform) (ps : List Byte) (s : State) :
    SameBlock s (dumpPage c ps s) ∧ StoreStep c s (dumpPage c ps s) := by
  cases ps with
  | nil => exact ⟨⟨rfl, rfl, rfl, rfl, rfl⟩, .inl rfl⟩
  | cons page rest =>
    simp only [dumpPage]
    split
    · exact ⟨(storageCall_block c _ s).trans (emit_block c _ _), .congr (.call c _ s) (emit_store c _ _)⟩
    · exact ⟨⟨rfl, rfl, rfl, rfl, rfl⟩, .congr (.call c (.read (pageAddress page)) s) rfl⟩

theorem eraseAll_steps (c : Platform) (ps : List Byte) (s : State) :
    SameBlock s (eraseAll c ps s) ∧ StoreStep c s (eraseAll c ps s) := by
  unfold eraseAll
  split
  · split
    · exact ⟨(storageCall_block c _ s).trans (acknowledge_block c _ _ _), .congr (.call c _ s) (acknowledge_store c _ _ _)⟩
    · exact ⟨⟨rfl, rfl, rfl, rfl, rfl⟩, .inl rfl⟩
  · exact ⟨⟨rfl, rfl, rfl, rfl, rfl⟩, .inl rfl⟩

theorem writePage_steps (c : Platform) (ps : List Byte) (s : State) :
    SameBlock s (writePage c ps s) ∧ StoreStep c s (writePage c ps s) := by
  unfold writePage
  split
  · exact ⟨⟨rfl, rfl, rfl, rfl, rfl⟩, .inl rfl⟩
  · split
    · exact ⟨⟨rfl, rfl, rfl, rfl, rfl⟩, .inl rfl⟩
    · exact ⟨(storageCall_block c _ s).trans (acknowledge_block c _ _ _), .congr (.call c _ s) (acknowledge_store c _ _ _)⟩

theorem invalidMessage_steps (c : Platform) (m : List Byte) (s : State) :
    SameBlock s (invalidMessage m s) ∧ StoreStep c s (invalidMessage m s) := by
  unfold invalidMessage
  split <;> exact ⟨⟨rfl, rfl, rfl, rfl, rfl⟩, .inl rfl⟩

/-- `Dispatch` writes no block state (42_command_validator.md rule R140) and at most one transaction reaches the
store. -/
theorem dispatch_steps (c : Platform) (m : List Byte) (s : State) :
    SameBlock s (dispatch c m s) ∧ StoreStep c s (dispatch c m s) := by
  unfold dispatch
  split
  · exact dumpPage_steps c _ { s with trace := s.trace ++ [.dispatch m] }
  · exact eraseAll_steps c _ { s with trace := s.trace ++ [.dispatch m] }
  · exact writePage_steps c _ { s with trace := s.trace ++ [.dispatch m] }
  · exact ⟨⟨rfl, rfl, rfl, rfl, rfl⟩, .inl rfl⟩
  · exact invalidMessage_steps c _ { s with trace := s.trace ++ [.dispatch m] }

/-! The level-1 operations. -/

/-- What a terminal group does: it finalizes the appended message, or it overflows; the scan moves in either case. -/
theorem terminalGroup_cases (c : Platform) (vs : List Byte) (adv : Nat) (s : State) :
    (s.cursor + vs.length ≤ 64 ∧
      terminalGroup c vs adv s =
        advance adv (finalize c
          { s with rxBuf := writeRx s.rxBuf s.cursor vs, cursor := s.cursor + vs.length })) ∨
    (64 < s.cursor + vs.length ∧
      terminalGroup c vs adv s = advance adv (abort .overflow (resetCursor s))) := by
  unfold terminalGroup
  rcases Nat.lt_or_ge 64 (s.cursor + vs.length) with h | h
  · exact .inr ⟨h, by simp only [append_overflow vs s h]; rfl⟩
  · exact .inl ⟨h, by simp only [append_done vs s h]; rfl⟩

/-- What `SXCONT` does: it appends, or it overflows; the scan moves by 4 in either case. -/
theorem sxcont_cases (p1 p2 p3 : Byte) (s : State) :
    (s.cursor + 3 ≤ 64 ∧
      sxcont p1 p2 p3 s =
        { s with rxBuf := writeRx s.rxBuf s.cursor [p1, p2, p3], cursor := s.cursor + 3, pos := s.pos + 4 }) ∨
    (64 < s.cursor + 3 ∧ sxcont p1 p2 p3 s = advance 4 (abort .overflow (resetCursor s))) := by
  unfold sxcont
  rcases Nat.lt_or_ge 64 (s.cursor + 3) with h | h
  · exact .inr ⟨h, by rw [append_overflow [p1, p2, p3] s h]⟩
  · exact .inl ⟨h, by rw [append_done [p1, p2, p3] s h]; rfl⟩

/-- What a non-SysEx group does: the cursor 0, the scan over, and the abort's name if a message was in progress. -/
theorem nonsx_eq (s : State) :
    nonsx s = { s with
      cursor := 0
      pos := s.pkt.length
      trace := if s.cursor = 0 then s.trace else s.trace ++ [.abort .framingCin] } := by
  unfold nonsx framingAbort
  by_cases h : s.cursor = 0
  · obtain ⟨rx, cu, pkt, pos, pe, st, dr, tr⟩ := s
    simp only at h
    subst h
    rfl
  · rw [if_pos (Nat.pos_of_ne_zero h), if_neg h]
    rfl

/-- What `Finalize` leaves alone, and the cursor it leaves (41_reassembler.md rule R121). -/
theorem finalize_block (c : Platform) (s : State) :
    (finalize c s).rxBuf = s.rxBuf ∧ (finalize c s).cursor = 0 ∧ (finalize c s).pkt = s.pkt ∧
      (finalize c s).pos = s.pos ∧ (finalize c s).pending = s.pending ∧ StoreStep c s (finalize c s) := by
  obtain ⟨⟨h1, _, h3, h4, h5⟩, h6⟩ := dispatch_steps c s.message s
  exact ⟨h1, rfl, h3, h4, h5, h6⟩

/-! The step. -/

/-- What one step can do: the operation at the scan position, or the end of the scan. -/
theorem step_cases (s : State) :
    (∃ i, fetchInstr s = some i ∧ step s = exec i s) ∨ (fetchInstr s = none ∧ step s = .next (endScan s)) := by
  unfold step
  cases h : fetchInstr s with
  | some i => exact .inl ⟨i, rfl, rfl⟩
  | none => exact .inr ⟨rfl, rfl⟩

/-- What the end of a scan can do: rest, or the next delivery. -/
theorem endScan_cases (s : State) :
    (s.pending = [] ∧ endScan s = { s with pkt := [], pos := 0 }) ∨
    (∃ p ps, s.pending = p :: ps ∧ endScan s = { s with pkt := p, pos := 0, pending := ps }) := by
  unfold endScan
  cases h : s.pending with
  | nil => exact .inl ⟨rfl, by simp only [beginPacket, ← h]⟩
  | cons p ps => exact .inr ⟨p, ps, rfl, rfl⟩

/-- A group is fetched exactly when 4 bytes are left at the scan position. -/
theorem fetchInstr_of_drop (s : State) (b0 b1 b2 b3 : Byte) (rest : List Byte)
    (h : s.pkt.drop s.pos = b0 :: b1 :: b2 :: b3 :: rest) : fetchInstr s = some (decodeGroup b0 b1 b2 b3) := by
  unfold fetchInstr
  rw [h]
  rfl

end Sys2Proof.Machine
end

