-- ==== Sys2Proof/Laws/PerInstr.lean ====
section
/-! SUPPORT. A law of the syntax, per row: how many bytes the encoding of an operation has. -/

namespace Sys2Proof.Laws.EncodedLength

open Sys2Proof Sys2Proof.Machine

/-- How many bytes a row's encoding has: 4 for a group, `L` for a message, 37, 4 and 4 for the replies, and
`4 * ceil(n / 3)` for ENCODE (30_encoding.md rules R60, R67, R75 to R77, 40_sysex_codec.md rule R90). -/
def expected : Instr → Nat
  | .sxcont _ _ _ _ => 4
  | .sxend1 _ _ _ _ => 4
  | .sxend2 _ _ _ _ => 4
  | .sxend3 _ _ _ _ => 4
  | .nonsxLo _ _ _ _ _ => 4
  | .nonsxHi _ _ _ _ _ => 4
  | .dumpPage ps => ps.length + 4
  | .eraseAll ps => ps.length + 4
  | .writePage ps => ps.length + 4
  | .unknown body => body.length + 3
  | .invalidMsg m => m.length
  | .rspDump _ _ => 37
  | .rspErase => 4
  | .rspWrite => 4
  | .encode msg => 4 * ((msg.length + 2) / 3)

def Statement (i : Instr) : Prop := ∀ c : Params, (encode c i).length = expected i

theorem sxcont (cable : Nibble) (p1 p2 p3 : Byte) : Statement (.sxcont cable p1 p2 p3) := fun _ => rfl
theorem sxend1 (cable : Nibble) (p1 p2 p3 : Byte) : Statement (.sxend1 cable p1 p2 p3) := fun _ => rfl
theorem sxend2 (cable : Nibble) (p1 p2 p3 : Byte) : Statement (.sxend2 cable p1 p2 p3) := fun _ => rfl
theorem sxend3 (cable : Nibble) (p1 p2 p3 : Byte) : Statement (.sxend3 cable p1 p2 p3) := fun _ => rfl
theorem nonsxLo (cable : Nibble) (cin : BitVec 2) (p1 p2 p3 : Byte) : Statement (.nonsxLo cable cin p1 p2 p3) :=
  fun _ => rfl
theorem nonsxHi (cable : Nibble) (cin : BitVec 3) (p1 p2 p3 : Byte) : Statement (.nonsxHi cable cin p1 p2 p3) :=
  fun _ => rfl

/-- A message is its body and three bytes. -/
theorem messageBytes_length (c : Params) (body : List Byte) : (messageBytes c body).length = body.length + 3 := by
  simp [messageBytes]

theorem dumpPage (params : List Byte) : Statement (.dumpPage params) := fun c => messageBytes_length c _
theorem eraseAll (params : List Byte) : Statement (.eraseAll params) := fun c => messageBytes_length c _
theorem writePage (params : List Byte) : Statement (.writePage params) := fun c => messageBytes_length c _
theorem unknown (body : List Byte) : Statement (.unknown body) := fun c => messageBytes_length c _
theorem invalidMsg (msg : List Byte) : Statement (.invalidMsg msg) := fun _ => rfl

/-- A page is 32 nibble bytes on the wire. -/
theorem splitPage_length (data : Page) : (splitPage data).length = 32 := by
  have h (l : List Byte) : (l.flatMap fun d => [hiNibble d, loNibble d]).length = 2 * l.length := by
    induction l with
    | nil => rfl
    | cons d l ih =>
      rw [List.flatMap_cons, List.length_append, ih]
      simp only [List.length_cons, List.length_nil]
      omega
  rw [splitPage, h, Vector.length_toList]

theorem rspDump (page : Byte) (data : Page) : Statement (.rspDump page data) := fun c => by
  simp [encode, dumpReply, splitPage_length, expected]

theorem rspErase : Statement .rspErase := fun _ => rfl
theorem rspWrite : Statement .rspWrite := fun _ => rfl

theorem encode (msg : List Byte) : Statement (.encode msg) := fun c => by
  show (encodeGroups c.txCable msg).length = 4 * ((msg.length + 2) / 3)
  fun_induction encodeGroups c.txCable msg with
  | case1 => rfl
  | case2 => simp
  | case3 => simp
  | case4 => simp
  | case5 a b d e rest ih =>
    simp only [List.length_cons] at *
    omega

end Sys2Proof.Laws.EncodedLength
end

