-- ==== Sys2Proof/Tests/Slice0.lean ====
section
/-! SUPPORT. The model's own tests: decoding of words written out from the encodings, the well-formedness checks, and
the vectors of 95_test_vectors.md under `EXAMPLE_CFG` (expected bytes copied from there, not from the model). -/

namespace Sys2Proof.Tests

open Sys2Proof Sys2Proof.Machine

/-- `EXAMPLE_CFG` of 00_scope.md rule R9. -/
def exParams : Params where
  manufId := 0x7D
  cmdDump := 0x01
  cmdErase := 0x02
  cmdWrite := 0x03
  rspDump := 0x11
  rspErase := 0x12
  rspWrite := 0x13
  scanAdvance := .wholeGroup
  txCable := 0
  replyOnStorageFail := .noReply
  erasePattern := 0xFF
  devselBase := 0xA0

/-- The store of 95_test_vectors.md T312: `00 .. 0F` at 32 to 47, `F0 .. FF` at 48 to 63, zero elsewhere. -/
def exStore (a : Nat) : Byte :=
  if 32 ≤ a ∧ a < 48 then BitVec.ofNat 8 (a - 32)
  else if 48 ≤ a ∧ a < 64 then BitVec.ofNat 8 (0xF0 + (a - 48))
  else 0

/-- Both neighbours healthy (95_test_vectors.md T300). -/
def ex : Platform where
  toParams := exParams
  storeInitial := exStore
  storageStatus := fun _ _ _ => .ok
  freeStoreByte := fun _ _ _ _ => 0x5A
  freeReadByte := fun _ _ _ _ => 0xA5
  txStatus := fun _ _ => .ok

/-- The Storage Service answering `fail`. -/
def exFail : Platform := { ex with storageStatus := fun _ _ _ => .fail }

/-- The Storage Service answering `fail`, and the success reply sent all the same (00_scope.md rule R9). -/
def exAckAnyway : Platform := { exFail with replyOnStorageFail := .ackAnyway }

/-- The document's literal scan advances (00_scope.md rule R9). -/
def exLiteral : Platform := { ex with scanAdvance := .documentLiteral }

/-- The reset state with this many bytes accumulated. -/
def accumulated (bytes : List Byte) : State :=
  { State.reset with rxBuf := writeRx State.reset.rxBuf 0 bytes, cursor := bytes.length }

/-- The reset state with this packet just delivered. -/
def withPacket (p : List Byte) : State := { State.reset with pkt := p }

/-- Whether an outcome is a next state with this property. -/
def nextHas (p : State → Bool) : Host.Outcome State Fault Refusal → Bool
  | .next s => p s
  | .fault _ => false
  | .refused _ => false

/-! Well-formedness: one ill-formed term for each check. -/

theorem test_wf_refuses_long_dump : (Instr.dumpPage (List.replicate 61 0)).wellFormed exParams = false := by decide
theorem test_wf_refuses_long_erase : (Instr.eraseAll (List.replicate 61 0)).wellFormed exParams = false := by decide
theorem test_wf_refuses_long_write : (Instr.writePage (List.replicate 61 0)).wellFormed exParams = false := by decide
theorem test_wf_refuses_long_unknown : (Instr.unknown (List.replicate 62 0)).wellFormed exParams = false := by decide
theorem test_wf_refuses_known_id : (Instr.unknown [0x02]).wellFormed exParams = false := by decide
theorem test_wf_refuses_empty_invalid : (Instr.invalidMsg []).wellFormed exParams = false := by decide
theorem test_wf_refuses_long_invalid : (Instr.invalidMsg (List.replicate 65 0)).wellFormed exParams = false := by decide
theorem test_wf_refuses_valid_invalid : (Instr.invalidMsg [0xF0, 0x7D, 0x55, 0xF7]).wellFormed exParams = false := by
  decide
theorem test_wf_accepts_longest_message : (Instr.dumpPage (List.replicate 60 0)).wellFormed exParams = true := by decide

/-! Decoding: words written out bit by bit from `cccc cin p1 p2 p3` (30_encoding.md rules R60, R61, R62). -/

theorem test_decode_sxcont :
    decodeTableWord 32 0b1010_0100_11110000_01111101_00000001 = some (.sxcont 0xA 0xF0 0x7D 0x01) := by decide
theorem test_decode_sxend1 :
    decodeTableWord 32 0b0000_0101_11110111_11111111_11111110 = some (.sxend1 0 0xF7 0xFF 0xFE) := by decide
theorem test_decode_sxend2 :
    decodeTableWord 32 0b0011_0110_00000010_11110111_00000000 = some (.sxend2 3 0x02 0xF7 0x00) := by decide
theorem test_decode_sxend3 :
    decodeTableWord 32 0b0000_0111_01000010_00100100_11110111 = some (.sxend3 0 0x42 0x24 0xF7) := by decide
theorem test_decode_nonsxLo :
    decodeTableWord 32 0b0001_0010_10000000_00000001_00000011 = some (.nonsxLo 1 0b10 0x80 0x01 0x03) := by decide
theorem test_decode_nonsxHi :
    decodeTableWord 32 0b0000_1001_10010000_00111100_01000000 = some (.nonsxHi 0 0b001 0x90 0x3C 0x40) := by decide
theorem test_decode_nonsxHi_top :
    decodeTableWord 32 0b1111_1111_00000000_00000000_00000000 = some (.nonsxHi 0xF 0b111 0 0 0) := by decide
theorem test_decode_short_group : decode [0x04, 0xF0, 0x7D] = .error .shortGroup := by rfl

/-- 30_encoding.md rule R72: `F0 7D 01 02 F7`. -/
theorem test_decode_dump : decodeMessage exParams [0xF0, 0x7D, 0x01, 0x02, 0xF7] = .dumpPage [0x02] := by decide
/-- 30_encoding.md rule R73. -/
theorem test_decode_erase : decodeMessage exParams [0xF0, 0x7D, 0x02, 0x42, 0x24, 0xF7] = .eraseAll [0x42, 0x24] := by
  decide
/-- 30_encoding.md rule R74, a short one (95_test_vectors.md V-R8). -/
theorem test_decode_write :
    decodeMessage exParams [0xF0, 0x7D, 0x03, 0xF0, 0x7D, 0x01, 0x02, 0xF7] =
      .writePage [0xF0, 0x7D, 0x01, 0x02] := by decide
/-- 95_test_vectors.md V-D10: a response id is no command id. -/
theorem test_decode_response_id : decodeMessage exParams [0xF0, 0x7D, 0x11, 0x02, 0xF7] = .unknown [0x11, 0x02] := by
  decide
/-- 95_test_vectors.md V-D13. -/
theorem test_decode_three_bytes : decodeMessage exParams [0xF0, 0x7D, 0xF7] = .unknown [] := by decide
/-- 95_test_vectors.md V-D12. -/
theorem test_decode_two_bytes : decodeMessage exParams [0xF0, 0xF7] = .invalidMsg [0xF0, 0xF7] := by decide
/-- 95_test_vectors.md V-D11. -/
theorem test_decode_one_byte : decodeMessage exParams [0xF0] = .invalidMsg [0xF0] := by decide

/-! The outbound rows' bytes (30_encoding.md rules R75 to R77, 95_test_vectors.md V-C6, V-C8, V-C10). -/

theorem test_encode_rspDump :
    encode exParams (.rspDump 2 (Vector.ofFn fun i => BitVec.ofNat 8 i.val)) =
      [0xF0, 0x7D, 0x11, 0x02, 0, 0, 0, 1, 0, 2, 0, 3, 0, 4, 0, 5, 0, 6, 0, 7, 0, 8, 0, 9, 0, 0xA, 0, 0xB, 0, 0xC,
        0, 0xD, 0, 0xE, 0, 0xF, 0xF7] := by decide
theorem test_encode_rspErase : encode exParams .rspErase = [0xF0, 0x7D, 0x12, 0xF7] := by decide
theorem test_encode_rspWrite : encode exParams .rspWrite = [0xF0, 0x7D, 0x13, 0xF7] := by decide
theorem test_encode_six :
    encode exParams (.encode [0xA1, 0xA2, 0xA3, 0xA4, 0xA5, 0xA6]) =
      [0x04, 0xA1, 0xA2, 0xA3, 0x07, 0xA4, 0xA5, 0xA6] := by decide
theorem test_encode_eight :
    encodeGroups 0 [0xA1, 0xA2, 0xA3, 0xA4, 0xA5, 0xA6, 0xA7, 0xA8] =
      [0x04, 0xA1, 0xA2, 0xA3, 0x04, 0xA4, 0xA5, 0xA6, 0x06, 0xA7, 0xA8, 0xFF] := by decide
theorem test_encode_cable_five :
    encodeGroups 5 [0xF0, 0x7D, 0x12, 0xF7] = [0x54, 0xF0, 0x7D, 0x12, 0x55, 0xF7, 0xFF, 0xFF] := by decide

/-! Arithmetic (30_encoding.md rules R69, R70; 95_test_vectors.md T308 and the end of 2.3). -/

theorem test_nibbles : (hiNibble 0xA7, loNibble 0xA7) = (0x0A, 0x07) := by decide
theorem test_join_wide : (joinNibbles 0x13 0x21, joinNibbles 0x10 0x00, joinNibbles 0x00 0x10) = (0x31, 0x00, 0x10) := by
  decide
theorem test_page_address : (pageAddress 63, pageAddress 255) = (1008, 4080) := by decide
theorem test_device_select : deviceSelect exParams 0x300 = 0xA6 := by decide

/-! Group steps (95_test_vectors.md T311). -/

/-- V-G6. -/
theorem test_sxcont :
    nextHas (fun t => t.cursor == 6 && t.message == [1, 2, 3, 0x11, 0x22, 0x33] && t.pos == 4 && t.trace == [])
      (exec (.sxcont 0 0x11 0x22 0x33) (accumulated [1, 2, 3])) = true := by decide
/-- V-G8. -/
theorem test_sxcont_overflow :
    nextHas (fun t => t.cursor == 0 && t.pos == 4 && t.trace == [.abort .overflow])
      (exec (.sxcont 0 0xF7 0xF7 0xF7) (accumulated (List.replicate 63 0))) = true := by decide
set_option maxRecDepth 4000 in
/-- V-G11. -/
theorem test_sxend1_fills :
    nextHas (fun t => t.cursor == 0 && t.rxBuf[63] == 0xF7 && t.pos == 4 && (dispatchesIn t.trace).map List.length == [64])
      (exec (.sxend1 0 0xF7 0 0) (accumulated (List.replicate 63 0x10))) = true := by decide
/-- V-G13. -/
theorem test_sxend2_cable_and_padding :
    nextHas (fun t => t.cursor == 0 && t.pos == 4 && t.trace == [.dispatch [0x02, 0xF7], .abort .badMarkers])
      (exec (.sxend2 0xA 0x02 0xF7 0x55) State.reset) = true := by decide
/-- V-G9. -/
theorem test_sxend3_overflow :
    nextHas (fun t => t.cursor == 0 && t.pos == 4 && t.trace == [.abort .overflow])
      (exec (.sxend3 0 0xF7 0xF7 0xF7) (accumulated (List.replicate 63 0))) = true := by decide
/-- V-G2. -/
theorem test_sxend3 :
    nextHas (fun t => t.cursor == 0 && t.trace == [.dispatch [0x11, 0x22, 0x33], .abort .badMarkers])
      (exec (.sxend3 0 0x11 0x22 0x33) State.reset) = true := by decide
/-- V-G7 with CIN 1. -/
theorem test_nonsxLo_abort :
    nextHas (fun t => t.cursor == 0 && t.pos == 8 && t.trace == [.abort .framingCin])
      (exec (.nonsxLo 0 1 0x11 0x22 0x33) { accumulated [1, 2, 3] with pkt := [1, 0x11, 0x22, 0x33, 4, 0, 0, 0] }) =
        true := by decide
/-- V-G5 with CIN 9. -/
theorem test_nonsxHi_idle :
    nextHas (fun t => t.cursor == 0 && t.pos == 4 && t.trace == [])
      (exec (.nonsxHi 0 1 0x90 0x3C 0x40) (withPacket [9, 0x90, 0x3C, 0x40])) = true := by decide

/-! Whole packets (95_test_vectors.md T312, T313). -/

/-- The dump reply of V-D1 as it goes out. -/
def txD2 : List Byte :=
  [0x04, 0xF0, 0x7D, 0x11, 0x04, 0x02, 0x00, 0x00, 0x04, 0x00, 0x01, 0x00, 0x04, 0x02, 0x00, 0x03, 0x04, 0x00, 0x04,
    0x00, 0x04, 0x05, 0x00, 0x06, 0x04, 0x00, 0x07, 0x00, 0x04, 0x08, 0x00, 0x09, 0x04, 0x00, 0x0A, 0x00, 0x04, 0x0B,
    0x00, 0x0C, 0x04, 0x00, 0x0D, 0x00, 0x04, 0x0E, 0x00, 0x0F, 0x05, 0xF7, 0xFF, 0xFF]

/-- V-R1, V-D1. -/
theorem test_dump_page :
    (rxPacket ex [0x04, 0xF0, 0x7D, 0x01, 0x06, 0x02, 0xF7, 0xFF] State.reset).trace =
      [.dispatch [0xF0, 0x7D, 0x01, 0x02, 0xF7], .storage (.read 32) .ok, .txWrite txD2 .ok] := by decide
/-- V-D20. -/
theorem test_dump_fails :
    (rxPacket exFail [0x04, 0xF0, 0x7D, 0x01, 0x06, 0x02, 0xF7, 0xFF] State.reset).trace =
      [.dispatch [0xF0, 0x7D, 0x01, 0x02, 0xF7], .storage (.read 32) .fail, .abort .storageFail] := by decide
/-- V-D14. -/
theorem test_dump_without_page :
    (rxPacket ex [0x04, 0xF0, 0x7D, 0x01, 0x05, 0xF7, 0xFF, 0xFF] State.reset).trace =
      [.dispatch [0xF0, 0x7D, 0x01, 0xF7], .abort .shortParams] := by decide
/-- V-D4. -/
theorem test_erase :
    (rxPacket ex [0x04, 0xF0, 0x7D, 0x02, 0x07, 0x42, 0x24, 0xF7] State.reset).trace =
      [.dispatch [0xF0, 0x7D, 0x02, 0x42, 0x24, 0xF7], .storage .eraseAll .ok,
        .txWrite [0x04, 0xF0, 0x7D, 0x12, 0x05, 0xF7, 0xFF, 0xFF] .ok] := by decide
/-- V-D3. -/
theorem test_erase_wrong_magic :
    (rxPacket ex [0x04, 0xF0, 0x7D, 0x02, 0x07, 0x00, 0x00, 0xF7] State.reset).trace =
      [.dispatch [0xF0, 0x7D, 0x02, 0x00, 0x00, 0xF7], .abort .badMagic] := by decide

/-- The parameter region of V-D5. -/
def paramsD5 : List Byte :=
  [0x05, 0x04, 0x02, 0x03, 0x01, 0x00, 0x00, 0x0F, 0x0F, 0x08, 0x00, 0x07, 0x0F, 0x01, 0x00, 0x00, 0x01, 0x0A, 0x05,
    0x05, 0x0A, 0x0D, 0x0E, 0x0A, 0x0D, 0x0B, 0x0E, 0x0E, 0x0F, 0x01, 0x02, 0x03, 0x04]

/-- The data of V-D5. -/
def dataD5 : Page :=
  #v[0x42, 0x31, 0x00, 0xFF, 0x80, 0x7F, 0x10, 0x01, 0xA5, 0x5A, 0xDE, 0xAD, 0xBE, 0xEF, 0x12, 0x34]

/-- V-D5: the transaction and the reply. -/
theorem test_write_page :
    (writePage ex paramsD5 State.reset).trace =
      [.storage (.write 80 dataD5) .ok, .txWrite [0x04, 0xF0, 0x7D, 0x13, 0x05, 0xF7, 0xFF, 0xFF] .ok] := by decide
/-- V-D5: the store. -/
theorem test_write_page_store :
    (List.range 18).map (fun i => (writePage ex paramsD5 State.reset).storeByte ex (79 + i)) =
      [0x00, 0x42, 0x31, 0x00, 0xFF, 0x80, 0x7F, 0x10, 0x01, 0xA5, 0x5A, 0xDE, 0xAD, 0xBE, 0xEF, 0x12, 0x34, 0x00] := by
  decide
/-- V-D6. -/
theorem test_write_short : (writePage ex paramsD5.dropLast State.reset).trace = [.abort .shortParams] := by decide
/-- V-D8, V-D9. -/
theorem test_invalid :
    ((dispatch ex [0xF0, 0x7D, 0x01, 0x02, 0x00] State.reset).trace.drop 1,
      (dispatch ex [0xF0, 0x7E, 0x01, 0x02, 0xF7] State.reset).trace.drop 1) =
      ([.abort .badMarkers], [.abort .badManuf]) := by decide
/-- V-D10. -/
theorem test_unknown :
    (dispatch ex [0xF0, 0x7D, 0x55, 0x00, 0xF7] State.reset).trace.drop 1 = [.abort .unknownCmd] := by decide
/-- V-R3. -/
theorem test_abort_ends_scan :
    (rxPacket ex [0x04, 0xF0, 0x7D, 0x01, 0x09, 0x90, 0x3C, 0x40, 0x06, 0x02, 0xF7, 0x00] State.reset).trace =
      [.abort .framingCin] := by decide
/-- V-R9 under the document's literal advances: the second dump is lost. -/
theorem test_literal_advance :
    (txIn (rxPacket exLiteral [0x04, 0xF0, 0x7D, 0x01, 0x06, 0x02, 0xF7, 0xFF, 0x04, 0xF0, 0x7D, 0x01, 0x06, 0x03, 0xF7,
      0xFF] State.reset).trace).length = 1 := by decide
/-- V-R9 under the decided advances. -/
theorem test_whole_group_advance :
    storageIn (rxPacket ex [0x04, 0xF0, 0x7D, 0x01, 0x06, 0x02, 0xF7, 0xFF, 0x04, 0xF0, 0x7D, 0x01, 0x06, 0x03, 0xF7,
      0xFF] State.reset).trace = [.read 32, .read 48] := by decide

/-- 42_command_validator.md rule R152 under `ACK_ANYWAY`: a failed erase is acknowledged. -/
theorem test_erase_ack_anyway :
    (eraseAll exAckAnyway [0x42, 0x24] State.reset).trace =
      [.storage .eraseAll .fail, .txWrite [0x04, 0xF0, 0x7D, 0x12, 0x05, 0xF7, 0xFF, 0xFF] .ok] := by decide
/-- 42_command_validator.md rule R152 under `ACK_ANYWAY`: a failed dump is not. -/
theorem test_dump_ack_anyway :
    (dumpPage exAckAnyway [0x02] State.reset).trace = [.storage (.read 32) .fail, .abort .storageFail] := by decide

/-! The host's questions: the first step after reset runs the placed word. -/

theorem test_first_step_sxcont :
    nextHas (fun t => t.cursor == 3 && t.pos == 4) (step (State.reset.withFetchWord 32 0x04F07D01)) = true := by decide
theorem test_first_step_sxend1 :
    nextHas (fun t => t.cursor == 0 && t.trace == [.dispatch [0], .abort .badMarkers])
      (step (State.reset.withFetchWord 32 0x05000000)) = true := by decide
theorem test_rest_step : nextHas (fun t => t == State.reset) (step State.reset) = true := by decide

/-! Witnesses: for each obligation with hypotheses, a state and operands that meet them, each clause at a boundary of its
range. `hyps_X` is about `Obligations.X`. -/

/-- The reset state with the cursor here. -/
def atCursor (n : Nat) : State := { State.reset with cursor := n }

/-- V-R1 as its two groups: the request to dump page 2. -/
def dumpTwo : List Byte := [0xF0, 0x7D, 0x01, 0x02, 0xF7]

theorem hyps_SxcontAppendsThreePayloadBytes : (atCursor 61).cursor + 3 ≤ 64 := by decide
theorem hyps_SxendThreeFinalizesTheMessage : (atCursor 61).cursor + 3 ≤ 64 := by decide
theorem hyps_SxendTwoFinalizesTheMessage : (atCursor 62).cursor + 2 ≤ 64 := by decide
theorem hyps_SxendOneFinalizesTheMessage : (atCursor 63).cursor + 1 ≤ 64 := by decide
theorem hyps_OverflowingGroupDiscardsTheMessage :
    64 < (atCursor 62).cursor + 3 ∧ 64 < (atCursor 63).cursor + 2 ∧ 64 < (atCursor 64).cursor + 1 := by decide
theorem hyps_DumpPageReadsThePageAndReplies : (63 : Byte).toNat < 64 := by decide
/-- The inner premises: a healthy platform, and one that answers `fail` and acknowledges all the same. -/
theorem hyps_EraseAllErasesTheStoreAndReplies :
    Memory.wf ex.storeInitial State.reset.store ∧
      ex.storageStatus State.reset.draws .eraseAll State.reset.store = .ok ∧ 1023 < 1024 ∧
      exAckAnyway.storageStatus State.reset.draws .eraseAll State.reset.store = .fail ∧
      exAckAnyway.replyOnStorageFail = .ackAnyway :=
  ⟨reset_store_wf _, rfl, by decide, rfl, rfl⟩
theorem hyps_WritePageStoresThePageAndReplies :
    (63 : Byte).toNat < 64 ∧ 32 ≤ (List.replicate 32 (0x0F : Byte)).length ∧
      Memory.wf ex.storeInitial State.reset.store ∧ Memory.wf exAckAnyway.storeInitial State.reset.store ∧
      (pageAddress 63).toNat + 16 ≤ 1024 ∧ 1007 < (pageAddress 63).toNat :=
  ⟨by decide, by decide, reset_store_wf _, reset_store_wf _, by decide, by decide⟩
theorem hyps_PagesOutsideTheStoreArePassedOn :
    64 ≤ (64 : Byte).toNat ∧ 32 ≤ (List.replicate 32 (0x0F : Byte)).length := by decide
theorem hyps_ShortOrUnmagicRequestsDoNothing :
    (List.replicate 32 (0 : Byte)).length < 33 ∧ ([0x42] : List Byte).length < 2 ∧
      ((0x42, 0x25) : Byte × Byte) ≠ (0x42, 0x24) ∧ ((0x43, 0x24) : Byte × Byte) ≠ (0x42, 0x24) := by decide
theorem hyps_InvalidMessageDoesNothing :
    ([] : List Byte).head? ≠ some 0xF0 ∧ ([0xF0] : List Byte).getLast? ≠ some 0xF7 ∧
      ([0xF0, 0xF7] : List Byte).head? = some 0xF0 ∧ ([0xF0, 0xF7] : List Byte).getLast? = some 0xF7 := by decide
theorem hyps_ValidatorRejectsInOrder :
    ([0xF0, 0x7D] : List Byte).getLast? ≠ some 0xF7 ∧
      (([0xF0, 0xF7] : List Byte).head? = some 0xF0 ∧ ([0xF0, 0xF7] : List Byte).getLast? = some 0xF7 ∧
        ([0xF0, 0xF7] : List Byte)[1]? ≠ some (idByte ex.manufId)) ∧
      ([0xF0, 0x7D, 0x55, 0xF7] : List Byte)[1]? = some (idByte ex.manufId) ∧
      ([0xF0, 0x7D, 0x55, 0xF7] : List Byte)[2]? ≠ some (idByte ex.cmdDump) ∧
      ([0xF0, 0x7D, 0x55, 0xF7] : List Byte)[2]? ≠ some (idByte ex.cmdErase) ∧
      ([0xF0, 0x7D, 0x55, 0xF7] : List Byte)[2]? ≠ some (idByte ex.cmdWrite) := by decide
theorem hyps_EncodeHandsOverOneWrite : ([0xF7] : List Byte) ≠ [] := by decide
theorem hyps_RowsThatStoreNothingLeaveTheStore :
    ((∃ t, exec (.encode []) State.reset = .next t) ∧ (Instr.encode []).isGroup = false ∧
      (Instr.encode []).mayStore = false) ∧
    ((∃ t, exec (.sxcont 0 1 2 3) (atCursor 61) = .next t) ∧ (Instr.sxcont 0 1 2 3).isGroup = true ∧
      (Instr.sxcont 0 1 2 3).mayStore = false ∧ 60 < (atCursor 61).cursor) ∧
    ((∃ t, exec (.sxend1 0 1 2 3) (atCursor 62) = .next t) ∧ (Instr.sxend1 0 1 2 3).isGroup = true ∧
      (atCursor 62).cursor + (Instr.sxend1 0 1 2 3).payloadLength ≤ 63) :=
  ⟨⟨⟨_, rfl⟩, rfl, rfl⟩, ⟨⟨_, rfl⟩, rfl, rfl, by decide⟩, ⟨_, rfl⟩, rfl, by decide⟩
theorem hyps_EncodeWalksInStridesOfThree : ([0xF7] : List Byte) ≠ [] := by decide
theorem hyps_EncodeClosedForm : 1 ≤ ([0xF7] : List Byte).length := by decide
theorem hyps_InverseMappingTable :
    (0x8 : Nibble) ≠ 0x4 ∧ (0x8 : Nibble) ≠ 0x5 ∧ (0x8 : Nibble) ≠ 0x6 ∧ (0x8 : Nibble) ≠ 0x7 := by decide
theorem hyps_DeviceSelectFoldsTwoAddressBits :
    (0xFF00 : Addr).extractLsb' 8 2 = (0x03FF : Addr).extractLsb' 8 2 := by decide
theorem hyps_DecodingReadsTheFieldsOfTheGroup :
    (0xF4FFFFFF : BitVec 32) &&& 0x0F000000 = 0x04000000 ∧ (0xF5FFFFFF : BitVec 32) &&& 0x0F000000 = 0x05000000 ∧
      (0xF6FFFFFF : BitVec 32) &&& 0x0F000000 = 0x06000000 ∧ (0xF7FFFFFF : BitVec 32) &&& 0x0F000000 = 0x07000000 ∧
      (0xF3FFFFFF : BitVec 32) &&& 0x0C000000 = 0x00000000 ∧ (0x08000000 : BitVec 32) &&& 0x08000000 = 0x08000000 := by
  decide
theorem hyps_GroupsDecodeToWhatTheyEncode : (Instr.nonsxHi 0xF 7 0 0 0).isGroup = true := by decide
theorem hyps_MessagesDecodeToWhatTheyEncode :
    exParams.Admitted ∧ (Message.writePage (List.replicate 60 0)).toInstr.wellFormed exParams = true ∧
      (Message.unknown []).toInstr.wellFormed exParams = true ∧ 1 ≤ dumpTwo.length ∧ dumpTwo.length ≤ 64 := by decide
theorem hyps_StepRunsTheDecodedGroup :
    (decode ((withPacket [4, 1, 2, 3]).pkt.drop (withPacket [4, 1, 2, 3]).pos) matches .ok (.sxcont 0 1 2 3, [])) ∧
      (withPacket [4, 1, 2, 3]).pos + 4 ≤ (withPacket [4, 1, 2, 3]).pkt.length ∧
      (withPacket [4, 1, 2]).pkt.length < (withPacket [4, 1, 2]).pos + 4 ∧ (withPacket [4, 1, 2]).pending = [] ∧
      { withPacket [4, 1, 2] with pending := [[4]] }.pending = [4] :: [] := by decide
theorem hyps_RestartKeepsTheStore :
    (63 : Byte).toNat < 64 ∧ Memory.wf ex.storeInitial State.reset.store ∧ 1007 < 16 * (63 : Byte).toNat ∧
      16 * (63 : Byte).toNat + 16 ≤ 1024 := ⟨by decide, reset_store_wf _, by decide, by decide⟩
theorem hyps_DeliveryWhileBusyIsRefused :
    (withPacket [4, 1, 2, 3]).pos + 4 ≤ (withPacket [4, 1, 2, 3]).pkt.length ∧
      (withPacket [4, 1, 2]).pkt.length < (withPacket [4, 1, 2]).pos + 4 := by decide
theorem hyps_EveryStepKeepsTheInvariant :
    ((atCursor 60).withFetchWord 32 0x04010203).Inv Config.platform ∧
      nextHas (fun t => t.cursor == 63) (step ((atCursor 60).withFetchWord 32 0x04010203)) = true :=
  ⟨⟨by decide, by decide, by decide, reset_store_wf _⟩, by decide⟩
theorem hyps_EveryPacketKeepsTheInvariant : (atCursor 63).Inv ex :=
  ⟨by decide, by decide, by decide, reset_store_wf _⟩
theorem hyps_AStepMovesTheCursorByThreeOrToZero :
    nextHas (fun t => t.cursor == 64) (step ((atCursor 61).withFetchWord 32 0x04010203)) = true := by decide
set_option maxRecDepth 4000 in
theorem hyps_EveryDispatchedMessageFits :
    dumpTwo ∈ dispatchesIn (rxPacket ex (encodeGroups 0 dumpTwo) State.reset).trace ∧
      List.replicate 63 0x10 ++ [0xF7] ∈
        dispatchesIn (groupStep ex 0x05 0xF7 0 0 (accumulated (List.replicate 63 0x10))).trace := by decide
theorem hyps_StaleBytesNeverMatter :
    (Vector.replicate 64 (0x5A : Byte)).toList.take 0 = State.reset.rxBuf.toList.take State.reset.cursor ∧
      (writeRx (Vector.replicate 64 (0x5A : Byte)) 0 [1, 2, 3]).toList.take (accumulated [1, 2, 3]).cursor =
        (accumulated [1, 2, 3]).rxBuf.toList.take (accumulated [1, 2, 3]).cursor := by decide
theorem hyps_RoundTripForEverySplitIntoPackets :
    1 ≤ dumpTwo.length ∧ dumpTwo.length ≤ 64 ∧ State.reset.cursor = 0 ∧
      [[0x34, 0xF0, 0x7D, 0x01], [], [0x36, 0x02, 0xF7, 0xFF]].flatten = encodeGroups 3 dumpTwo ∧
      ∀ p ∈ [[0x34, 0xF0, 0x7D, 0x01], [], ([0x36, 0x02, 0xF7, 0xFF] : List Byte)], p.length % 4 = 0 := by decide
theorem hyps_PacketBoundariesDoNotMatter :
    ex.scanAdvance = .wholeGroup ∧ [0x04, 0xF0, 0x7D, (0x01 : Byte)].length % 4 = 0 ∧
      OnlySysexGroups [0x04, 0xF0, 0x7D, 0x01] :=
  ⟨rfl, rfl, fun k h => by
    have h0 : k = 0 := by simp only [List.length_cons, List.length_nil] at h; omega
    subst h0
    decide⟩
theorem hyps_GroupsBehindANonSysexGroupAreSkipped :
    ex.scanAdvance = .wholeGroup ∧ [0x09, 0x90, 0x3C, (0x40 : Byte)].length % 4 = 0 ∧
      ¬ OnlySysexGroups [0x09, 0x90, 0x3C, 0x40] :=
  ⟨rfl, rfl, fun h => absurd (h 0 (by decide)) (by decide)⟩
theorem hyps_ANonSysexGroupResynchronises :
    inverseShape (cinOf 0x03) = none ∧ inverseShape (cinOf 0xF8) = none := by decide
theorem hyps_TrailingBytesAreNeverRead :
    ex.scanAdvance = .wholeGroup ∧ ([] : List Byte).length % 4 = 0 ∧ [0x04, 0xF0, (0x7D : Byte)].length < 4 := by decide
theorem hyps_CablesFeedOneBuffer :
    ex.scanAdvance = .wholeGroup ∧ [0xA7, 0x11, 0x22, (0x33 : Byte)].length = [0x07, 0x11, 0x22, (0x33 : Byte)].length ∧
      ∀ k < 4, if k % 4 = 0
        then cinOf ([0xA7, 0x11, 0x22, 0x33].getD k 0) = cinOf ([0x07, 0x11, 0x22, 0x33].getD k 0)
        else ([0xA7, 0x11, 0x22, 0x33] : List Byte).getD k 0 = [0x07, 0x11, 0x22, 0x33].getD k 0 := by decide
theorem hyps_LiteralAdvancesLoseTheGroupsBehind :
    exLiteral.scanAdvance = .documentLiteral ∧ 1 ≤ dumpTwo.length ∧ dumpTwo.length ≤ 64 ∧ dumpTwo.length % 3 ≠ 0 ∧
      State.reset.cursor = 0 := by decide
theorem hyps_NoReplyWithoutAStorageSuccess :
    ex.replyOnStorageFail = .noReply ∧
      (rxPackets ex [encodeGroups 0 dumpTwo] State.reset).trace[2]? = some (.txWrite txD2 .ok) ∧
      exFail.replyOnStorageFail = .noReply ∧ ∀ n q m, exFail.storageStatus n q m = .fail :=
  ⟨rfl, by decide, rfl, fun _ _ _ => rfl⟩
theorem hyps_ADumpReturnsWhatWasWritten :
    Healthy ex ∧ ex.toParams.Admitted ∧ (63 : Byte).toNat < 64 ∧ Memory.wf ex.storeInitial State.reset.store ∧
      State.reset.cursor = 0 := ⟨fun _ _ _ => rfl, by decide, by decide, reset_store_wf _, rfl⟩
theorem hyps_ADumpAfterAnEraseIsThePattern :
    Healthy ex ∧ ex.toParams.Admitted ∧ (63 : Byte).toNat < 64 ∧ State.reset.cursor = 0 :=
  ⟨fun _ _ _ => rfl, by decide, by decide, rfl⟩
theorem hyps_StepsRunEveryPacketToCompletion :
    { State.reset with pending := [encodeGroups 0 dumpTwo] }.AtRest := ⟨rfl, rfl⟩

end Sys2Proof.Tests
end

namespace Sys2Proof.Machine

/-! The Reassembler's state, said once as an `↔` per value (10_state.md rule R23). -/

@[simp] theorem State.rxState_eq_idle_iff (s : State) : s.rxState = .idle ↔ s.cursor = 0 := by
  unfold State.rxState
  split
  case isTrue hzero => simp [hzero]
  case isFalse hpos => simp [hpos]

@[simp] theorem State.rxState_eq_accumulating_iff (s : State) :
    s.rxState = .accumulating ↔ 0 < s.cursor := by
  unfold State.rxState
  split
  case isTrue hzero => simp [hzero]
  case isFalse hpos => simp [Nat.pos_of_ne_zero hpos]

/-- Settles O39: one characterisation per value of the Reassembler's state. -/
theorem idleExactlyWhenTheCursorIsZero : Obligations.IdleExactlyWhenTheCursorIsZero :=
  fun s => ⟨s.rxState_eq_idle_iff, s.rxState_eq_accumulating_iff⟩

end Sys2Proof.Machine

namespace Sys2Proof.Machine

/-! The page address and the device select as arithmetic (20_memory.md rules R44 and R47). -/

/-- The 16-bit product never wraps: a page byte is below 256 (20_memory.md rule R44). -/
@[simp] theorem pageAddress_toNat (page : Byte) : (pageAddress page).toNat = page.toNat * 16 := by
  have hpage : page.toNat < 256 := page.isLt
  have hwidth : (page.zeroExtend 16).toNat = page.toNat := by
    rw [BitVec.toNat_setWidth, Nat.mod_eq_of_lt (by omega)]
  have hproduct : page.toNat * 16 < 2 ^ 16 := by omega
  rw [pageAddress, BitVec.toNat_mul, hwidth]
  exact Nat.mod_eq_of_lt hproduct

/-- A page address has no offset within its page. -/
@[simp] theorem pageAddress_low_nibble (page : Byte) : (pageAddress page).extractLsb' 0 4 = 0 := by
  apply BitVec.eq_of_toNat_eq
  rw [BitVec.extractLsb'_toNat, pageAddress_toNat]
  exact Nat.mul_mod_left page.toNat 16

/-- Settles O26: the exact product, of which the bound and the low bits are consequences. -/
theorem pageAddressIsPageTimesSixteen : Obligations.PageAddressIsPageTimesSixteen := by
  intro page
  have hpage : page.toNat < 256 := page.isLt
  refine ⟨pageAddress_toNat page, ?_, pageAddress_low_nibble page⟩
  rw [pageAddress_toNat]
  omega

/-- The mask selects bits 9 and 8, and the shift leaves them at bits 2 and 1 over a zero bit. -/
theorem and_0x300_shiftRight_seven (n : Nat) : (n &&& 0x300) >>> 7 = 2 * ((n / 256) % 4) := by
  have hmask : (n &&& 0x300) / 2 ^ 8 = n / 256 % 4 := by
    rw [Nat.and_div_two_pow]
    exact Nat.and_two_pow_sub_one_eq_mod (n / 256) 2
  have hlow : (n &&& 0x300) % 2 ^ 8 = 0 := by
    rw [Nat.and_mod_two_pow]
    exact Nat.and_zero _
  rw [Nat.shiftRight_eq_div_pow]
  omega

/-- Only address bits 9 and 8 enter the device select, at bits 2 and 1 (20_memory.md rule R47). -/
theorem deviceSelect_eq_base_or_bits (c : Params) (addr : Addr) :
    deviceSelect c addr = c.devselBase ||| (2 * (addr.extractLsb' 8 2).toNat) := by
  rw [deviceSelect, and_0x300_shiftRight_seven, BitVec.extractLsb'_toNat, Nat.shiftRight_eq_div_pow]

/-- Settles O27: the device select is a function of the base and of address bits 9 and 8. -/
theorem deviceSelectFoldsTwoAddressBits : Obligations.DeviceSelectFoldsTwoAddressBits := by
  intro c addr
  constructor
  · rw [deviceSelect, and_0x300_shiftRight_seven]
  · intro addr' hbits
    rw [deviceSelect_eq_base_or_bits, deviceSelect_eq_base_or_bits, hbits]

end Sys2Proof.Machine

namespace Sys2Proof.Machine

/-! The nibble split as arithmetic (30_encoding.md rule R69), and the page it is read from byte by byte (rule R75). -/

@[simp] theorem hiNibble_toNat (d : Byte) : (hiNibble d).toNat = d.toNat / 16 := by
  have hd : d.toNat < 256 := d.isLt
  have hfield : (d.extractLsb' 4 4).toNat = d.toNat / 16 % 16 := by
    rw [BitVec.extractLsb'_toNat, Nat.shiftRight_eq_div_pow]
  rw [hiNibble, BitVec.toNat_setWidth, hfield]
  omega

@[simp] theorem loNibble_toNat (d : Byte) : (loNibble d).toNat = d.toNat % 16 := by
  have hfield : (d.extractLsb' 0 4).toNat = d.toNat % 16 := by
    rw [BitVec.extractLsb'_toNat, Nat.shiftRight_zero]
  rw [loNibble, BitVec.toNat_setWidth, hfield]
  omega

/-- Settles O24: each nibble as arithmetic; the order on the wire is how `splitPage` is built. -/
theorem nibbleSplitIsHighThenLow : Obligations.NibbleSplitIsHighThenLow :=
  ⟨fun d => ⟨hiNibble_toNat d, loNibble_toNat d⟩, fun _ => rfl⟩

theorem map_getD_range_length {α : Type} (l : List α) (d : α) :
    (List.range l.length).map (fun i => l.getD i d) = l := by
  apply List.ext_getElem
  · simp
  · intro i _ hi
    simp [hi]

/-- The split of a page by the index of its bytes, as rule R75 writes it. -/
theorem splitPage_eq_flatMap_range (data : Page) :
    splitPage data =
      (List.range 16).flatMap fun i => [hiNibble (data.toList.getD i 0), loNibble (data.toList.getD i 0)] := by
  have hindex : (List.range 16).map (fun i => data.toList.getD i 0) = data.toList := by
    simpa only [Vector.length_toList] using map_getD_range_length data.toList 0
  calc splitPage data
      = ((List.range 16).map fun i => data.toList.getD i 0).flatMap fun d => [hiNibble d, loNibble d] := by
        rw [hindex, splitPage]
    _ = _ := List.flatMap_map _ _ _

end Sys2Proof.Machine

namespace Sys2Proof.Machine

/-! The outbound rows: each hands one message to the transport (40_sysex_codec.md rule R98). -/

/-- The next state of an outbound write: one more answer drawn, and the write recorded. -/
theorem emit_eq_record (c : Platform) (msg : List Byte) (s : State) (hmsg : msg ≠ []) :
    emit c msg s = { s with draws := s.draws + 1, trace := s.trace ++ [replyEvent c s.draws msg] } := by
  rw [emit_cons c msg s hmsg]
  rfl

theorem exec_rspDump (page : Byte) (data : Page) (s : State) :
    exec (.rspDump page data) s =
      .next (emit Config.platform (dumpReply Config.platform.toParams page data) s) := rfl

theorem exec_rspErase (s : State) :
    exec .rspErase s = .next (emit Config.platform (eraseReply Config.platform.toParams) s) := rfl

theorem exec_rspWrite (s : State) :
    exec .rspWrite s = .next (emit Config.platform (writeReply Config.platform.toParams) s) := rfl

theorem dumpReply_length (c : Params) (page : Byte) (data : Page) : (dumpReply c page data).length = 37 :=
  Laws.EncodedLength.rspDump page data c

theorem dumpReply_ne_nil (c : Params) (page : Byte) (data : Page) : dumpReply c page data ≠ [] :=
  List.ne_nil_of_length_pos (by rw [dumpReply_length]; decide)

/-- Settles O16: the reply is `dumpReply` with its page split by index, and a reply is one write. -/
theorem dumpReplyIsOneWrite : Obligations.DumpReplyIsOneWrite := by
  intro page data s nibbles reply
  have hreply : reply = dumpReply Config.platform.toParams page data := by
    rw [dumpReply, splitPage_eq_flatMap_range]
  rw [hreply]
  constructor
  · exact dumpReply_length _ page data
  · rw [exec_rspDump, emit_eq_record _ _ s (dumpReply_ne_nil _ page data)]

theorem eraseReply_ne_nil (c : Params) : eraseReply c ≠ [] := List.cons_ne_nil _ _

theorem writeReply_ne_nil (c : Params) : writeReply c ≠ [] := List.cons_ne_nil _ _

/-- Settles O17: both replies are messages that are not empty, so each is one write. -/
theorem eraseAndWriteRepliesAreOneWrite : Obligations.EraseAndWriteRepliesAreOneWrite := by
  intro s
  constructor
  · rw [exec_rspErase, emit_eq_record _ _ s (eraseReply_ne_nil _), eraseReply]
  · rw [exec_rspWrite, emit_eq_record _ _ s (writeReply_ne_nil _), writeReply]

end Sys2Proof.Machine

namespace Sys2Proof

/-! The rows of the group decoder (30_encoding.md rule R65), one equation per row, each by the CIN bits its match
fixes. -/

section
variable {b0 b1 b2 b3 : Byte}

theorem decodeGroup_of_cinCont (h : cinOf b0 = Config.cinCont) :
    decodeGroup b0 b1 b2 b3 = .sxcont (cableOf b0) b1 b2 b3 := by
  simp [decodeGroup, h]

theorem decodeGroup_of_cinEnd1 (h : cinOf b0 = Config.cinEnd1) :
    decodeGroup b0 b1 b2 b3 = .sxend1 (cableOf b0) b1 b2 b3 := by
  simp [decodeGroup, h]

theorem decodeGroup_of_cinEnd2 (h : cinOf b0 = Config.cinEnd2) :
    decodeGroup b0 b1 b2 b3 = .sxend2 (cableOf b0) b1 b2 b3 := by
  simp [decodeGroup, h]

theorem decodeGroup_of_cinEnd3 (h : cinOf b0 = Config.cinEnd3) :
    decodeGroup b0 b1 b2 b3 = .sxend3 (cableOf b0) b1 b2 b3 := by
  simp [decodeGroup, h]

/-- CIN 0 to 3: the two high CIN bits are 0. -/
theorem decodeGroup_of_cin_high_bits_zero (h : (cinOf b0).extractLsb' 2 2 = 0) :
    decodeGroup b0 b1 b2 b3 = .nonsxLo (cableOf b0) ((cinOf b0).extractLsb' 0 2) b1 b2 b3 := by
  have hother : ∀ cin : Nibble, cin.extractLsb' 2 2 = 0 →
      cin ≠ Config.cinCont ∧ cin ≠ Config.cinEnd1 ∧ cin ≠ Config.cinEnd2 ∧ cin ≠ Config.cinEnd3 ∧
        ¬cin.msb = true := by decide
  obtain ⟨hcont, hend1, hend2, hend3, hmsb⟩ := hother _ h
  rw [decodeGroup, if_neg hcont, if_neg hend1, if_neg hend2, if_neg hend3, if_neg hmsb]

/-- CIN 8 to 15: the top CIN bit is 1. -/
theorem decodeGroup_of_cin_top_bit_one (h : (cinOf b0).extractLsb' 3 1 = 1) :
    decodeGroup b0 b1 b2 b3 = .nonsxHi (cableOf b0) ((cinOf b0).extractLsb' 0 3) b1 b2 b3 := by
  have hother : ∀ cin : Nibble, cin.extractLsb' 3 1 = 1 →
      cin ≠ Config.cinCont ∧ cin ≠ Config.cinEnd1 ∧ cin ≠ Config.cinEnd2 ∧ cin ≠ Config.cinEnd3 ∧
        cin.msb = true := by decide
  obtain ⟨hcont, hend1, hend2, hend3, hmsb⟩ := hother _ h
  rw [decodeGroup, if_neg hcont, if_neg hend1, if_neg hend2, if_neg hend3, if_pos hmsb]

end

/-- Every CIN belongs to a row (30_encoding.md rule R65). -/
theorem cin_rows_exhaustive : ∀ cin : Nibble,
    cin = Config.cinCont ∨ cin = Config.cinEnd1 ∨ cin = Config.cinEnd2 ∨ cin = Config.cinEnd3 ∨
      cin.extractLsb' 2 2 = 0 ∨ cin.extractLsb' 3 1 = 1 := by decide

/-! The group word (30_encoding.md rule R60): its header byte, its fields, and a mask as the test of one field. -/

/-- The header byte of a group word, its byte 0 (00_scope.md rule R11). -/
def wordHeader (W : BitVec 32) : Byte := W.extractLsb' 24 8

theorem decode_groupWordBytes (W : BitVec 32) :
    decode (groupWordBytes W) =
      .ok (decodeGroup (wordHeader W) (W.extractLsb' 16 8) (W.extractLsb' 8 8) (W.extractLsb' 0 8), []) := rfl

/-- A field of a field is a field of the whole. -/
theorem extractLsb'_extractLsb' {w : Nat} (x : BitVec w) (start len start' len' : Nat) (h : start' + len' ≤ len) :
    (x.extractLsb' start len).extractLsb' start' len' = x.extractLsb' (start + start') len' := by
  ext i hi
  have hinner : start' + i < len := by omega
  simp [hinner, Nat.add_assoc]

@[simp] theorem cableOf_wordHeader (W : BitVec 32) : cableOf (wordHeader W) = W.extractLsb' 28 4 :=
  extractLsb'_extractLsb' W 24 8 4 4 (by decide)

@[simp] theorem cinOf_wordHeader (W : BitVec 32) : cinOf (wordHeader W) = W.extractLsb' 24 4 :=
  extractLsb'_extractLsb' W 24 8 0 4 (by decide)

/-- A row's mask (30_encoding.md rule R65): `len` ones from bit `start` on. -/
def fieldMask (start len : Nat) : BitVec 32 := (BitVec.allOnes len).setWidth 32 <<< start

/-- A mask compares its field and nothing else. -/
theorem and_fieldMask_eq_iff (W : BitVec 32) (start len : Nat) (k : BitVec len) (h : start + len ≤ 32) :
    W &&& fieldMask start len = k.setWidth 32 <<< start ↔ W.extractLsb' start len = k := by
  unfold fieldMask
  constructor
  · intro hmask
    ext i hi
    have hbit := congrArg (fun V => V.getLsbD (start + i)) hmask
    have hword : start + i < 32 := by omega
    have hfield : i < 32 := by omega
    simpa [hi, hword, hfield] using hbit
  · rintro rfl
    ext i hi
    by_cases hlow : i < start
    · simp [hlow]
    · have hindex : start + (i - start) = i := by omega
      simp [hlow, hindex, Bool.and_comm, BitVec.getLsbD_eq_getElem hi]

/-! The masks of rule R65 as tests of the CIN: all of it, its two high bits, its top bit. -/

theorem and_cinMask_eq_iff (W : BitVec 32) (cin : Nibble) :
    W &&& 0x0F000000 = cin.setWidth 32 <<< 24 ↔ cinOf (wordHeader W) = cin := by
  rw [cinOf_wordHeader]
  exact and_fieldMask_eq_iff W 24 4 cin (by decide)

theorem and_cinHighMask_eq_iff (W : BitVec 32) :
    W &&& 0x0C000000 = 0x00000000 ↔ (cinOf (wordHeader W)).extractLsb' 2 2 = 0 := by
  rw [cinOf_wordHeader, extractLsb'_extractLsb' W 24 4 2 2 (by decide)]
  exact and_fieldMask_eq_iff W 26 2 0 (by decide)

theorem and_cinTopMask_eq_iff (W : BitVec 32) :
    W &&& 0x08000000 = 0x08000000 ↔ (cinOf (wordHeader W)).extractLsb' 3 1 = 1 := by
  rw [cinOf_wordHeader, extractLsb'_extractLsb' W 24 4 3 1 (by decide)]
  exact and_fieldMask_eq_iff W 27 1 1 (by decide)

/-- Settles O28: each row's mask is a test of CIN bits, so its match selects that row of `decodeGroup`, and every CIN has
a row. -/
theorem decodingReadsTheFieldsOfTheGroup : Obligations.DecodingReadsTheFieldsOfTheGroup := by
  intro W cable p1 p2 p3 reads
  have reads_of {i : Instr} (hrow : decodeGroup (wordHeader W) p1 p2 p3 = i) : reads i := by
    rw [← hrow]
    exact decode_groupWordBytes W
  have hcin (cin : Nibble) := and_cinMask_eq_iff W cin
  have hlo := and_cinHighMask_eq_iff W
  have hhi := and_cinTopMask_eq_iff W
  refine ⟨fun h => ?sxcont, fun h => ?sxend1, fun h => ?sxend2, fun h => ?sxend3, fun h => ?nonsxLo, fun h => ?nonsxHi,
    ?exhaustive⟩
  case sxcont =>
    exact reads_of (by rw [decodeGroup_of_cinCont ((hcin 4).mp h), cableOf_wordHeader])
  case sxend1 =>
    exact reads_of (by rw [decodeGroup_of_cinEnd1 ((hcin 5).mp h), cableOf_wordHeader])
  case sxend2 =>
    exact reads_of (by rw [decodeGroup_of_cinEnd2 ((hcin 6).mp h), cableOf_wordHeader])
  case sxend3 =>
    exact reads_of (by rw [decodeGroup_of_cinEnd3 ((hcin 7).mp h), cableOf_wordHeader])
  case nonsxLo =>
    exact reads_of (by rw [decodeGroup_of_cin_high_bits_zero (hlo.mp h), cableOf_wordHeader, cinOf_wordHeader,
      extractLsb'_extractLsb' W 24 4 0 2 (by decide)])
  case nonsxHi =>
    exact reads_of (by rw [decodeGroup_of_cin_top_bit_one (hhi.mp h), cableOf_wordHeader, cinOf_wordHeader,
      extractLsb'_extractLsb' W 24 4 0 3 (by decide)])
  case exhaustive =>
    exact (cin_rows_exhaustive (cinOf (wordHeader W))).imp (hcin 4).mpr <| Or.imp (hcin 5).mpr <|
      Or.imp (hcin 6).mpr <| Or.imp (hcin 7).mpr <| Or.imp hlo.mpr hhi.mpr

end Sys2Proof

namespace Sys2Proof.Machine

/-! The strides of `Encode` (40_sysex_codec.md rules R92 to R96): one equation per number of bytes left. -/

/-- A full stride with bytes behind it is SXCONT (40_sysex_codec.md rule R92). -/
theorem encodeGroups_of_rest_ne_nil (cable : Nibble) (a b d : Byte) {rest : List Byte} (hrest : rest ≠ []) :
    encodeGroups cable (a :: b :: d :: rest) =
      [headerByte cable Config.cinCont, a, b, d] ++ encodeGroups cable rest := by
  cases rest with
  | nil => exact absurd rfl hrest
  | cons e rest => simp [encodeGroups]

@[simp] theorem encodeGroups_three (cable : Nibble) (a b d : Byte) :
    encodeGroups cable [a, b, d] = [headerByte cable Config.cinEnd3, a, b, d] := by
  simp [encodeGroups]

@[simp] theorem encodeGroups_two (cable : Nibble) (a b : Byte) :
    encodeGroups cable [a, b] = [headerByte cable Config.cinEnd2, a, b, Config.txPad] := by
  simp [encodeGroups]

@[simp] theorem encodeGroups_one (cable : Nibble) (a : Byte) :
    encodeGroups cable [a] = [headerByte cable Config.cinEnd1, a, Config.txPad, Config.txPad] := by
  simp [encodeGroups]

@[simp] theorem encodeGroups_nil (cable : Nibble) : encodeGroups cable [] = [] := by
  simp [encodeGroups]

/-- Settles O20: the CIN and the padding of each case are the configured ones. -/
theorem encodeWalksInStridesOfThree : Obligations.EncodeWalksInStridesOfThree := by
  intro cable a b d rest
  exact ⟨encodeGroups_of_rest_ne_nil cable a b d, encodeGroups_three cable a b d, encodeGroups_two cable a b,
    encodeGroups_one cable a, encodeGroups_nil cable⟩

/-! The inverse mapping (40_sysex_codec.md rule R100): one row of the table per SysEx CIN, and the walk by it. -/

@[simp] theorem inverseShape_cinCont : inverseShape Config.cinCont = some (3, false) := by
  simp [inverseShape]

@[simp] theorem inverseShape_cinEnd3 : inverseShape Config.cinEnd3 = some (3, true) := by
  simp [inverseShape]

@[simp] theorem inverseShape_cinEnd2 : inverseShape Config.cinEnd2 = some (2, true) := by
  simp [inverseShape]

@[simp] theorem inverseShape_cinEnd1 : inverseShape Config.cinEnd1 = some (1, true) := by
  simp [inverseShape]

theorem inverseShape_eq_none {cin : Nibble} (hcont : cin ≠ Config.cinCont) (hend1 : cin ≠ Config.cinEnd1)
    (hend2 : cin ≠ Config.cinEnd2) (hend3 : cin ≠ Config.cinEnd3) : inverseShape cin = none := by
  rw [inverseShape, if_neg hcont, if_neg hend3, if_neg hend2, if_neg hend1]

/-- A group of a SysEx CIN contributes its valid bytes; what its padding holds does not enter. -/
theorem groupPayloads_of_inverseShape_some {b0 b1 b2 b3 : Byte} {rest : List Byte} {k : Nat} {terminal : Bool}
    (hshape : inverseShape (cinOf b0) = some (k, terminal)) :
    groupPayloads (b0 :: b1 :: b2 :: b3 :: rest) = [b1, b2, b3].take k ++ groupPayloads rest := by
  rw [cinOf] at hshape
  rw [groupPayloads, hshape, Option.map_some, Option.getD_some]

/-- A group of any other CIN contributes nothing. -/
theorem groupPayloads_of_inverseShape_none {b0 b1 b2 b3 : Byte} {rest : List Byte}
    (hshape : inverseShape (cinOf b0) = none) :
    groupPayloads (b0 :: b1 :: b2 :: b3 :: rest) = groupPayloads rest := by
  rw [cinOf] at hshape
  rw [groupPayloads, hshape, Option.map_none, Option.getD_none, List.take_zero, List.nil_append]

/-- Settles O23: the table row by row, and a step of the walk for a CIN in the table and for one that is not. -/
theorem inverseMappingTable : Obligations.InverseMappingTable := by
  refine ⟨inverseShape_cinCont, inverseShape_cinEnd3, inverseShape_cinEnd2, inverseShape_cinEnd1,
    fun _ => inverseShape_eq_none, fun b0 b1 b2 b3 rest => ?walk⟩
  case walk =>
    cases hshape : inverseShape (cinOf b0) with
    | some shape => exact groupPayloads_of_inverseShape_some hshape
    | none => exact groupPayloads_of_inverseShape_none hshape

end Sys2Proof.Machine

namespace Sys2Proof.Machine

/-! The rows of level 1 and level 2, one equation per row of `exec`. The padding of a group is not read, nor is its
cable (30_encoding.md rule R63). -/

theorem exec_sxcont (cable : Nibble) (p1 p2 p3 : Byte) (s : State) :
    exec (.sxcont cable p1 p2 p3) s = .next (sxcont p1 p2 p3 s) := rfl

theorem exec_sxend1 (cable : Nibble) (p1 pad2 pad3 : Byte) (s : State) :
    exec (.sxend1 cable p1 pad2 pad3) s = .next (terminalGroup Config.platform [p1] 4 s) := rfl

theorem exec_sxend2 (cable : Nibble) (p1 p2 pad3 : Byte) (s : State) :
    exec (.sxend2 cable p1 p2 pad3) s = .next (terminalGroup Config.platform [p1, p2] 4 s) := rfl

theorem exec_sxend3 (cable : Nibble) (p1 p2 p3 : Byte) (s : State) :
    exec (.sxend3 cable p1 p2 p3) s = .next (terminalGroup Config.platform [p1, p2, p3] 4 s) := rfl

theorem exec_nonsxLo (cable : Nibble) (cin : BitVec 2) (p1 p2 p3 : Byte) (s : State) :
    exec (.nonsxLo cable cin p1 p2 p3) s = .next (nonsx s) := rfl

theorem exec_nonsxHi (cable : Nibble) (cin : BitVec 3) (p1 p2 p3 : Byte) (s : State) :
    exec (.nonsxHi cable cin p1 p2 p3) s = .next (nonsx s) := rfl

theorem exec_dumpPage (ps : List Byte) (s : State) :
    exec (.dumpPage ps) s = .next (dumpPage Config.platform ps s) := rfl

theorem exec_eraseAll (ps : List Byte) (s : State) :
    exec (.eraseAll ps) s = .next (eraseAll Config.platform ps s) := rfl

theorem exec_writePage (ps : List Byte) (s : State) :
    exec (.writePage ps) s = .next (writePage Config.platform ps s) := rfl

theorem exec_unknown (body : List Byte) (s : State) :
    exec (.unknown body) s = .next (abort .unknownCmd s) := rfl

theorem exec_invalidMsg (msg : List Byte) (s : State) :
    exec (.invalidMsg msg) s = .next (invalidMessage msg s) := rfl

theorem exec_encode (msg : List Byte) (s : State) :
    exec (.encode msg) s = .next (emit Config.platform msg s) := rfl

/-- What a decoded message does (42_command_validator.md rules R143, R144), under any configuration. -/
def runMessage (c : Platform) : Message → State → State
  | .dumpPage ps, s => dumpPage c ps s
  | .eraseAll ps, s => eraseAll c ps s
  | .writePage ps, s => writePage c ps s
  | .unknown _, s => unknownCommand s
  | .invalidMsg m, s => invalidMessage m s

/-- The level-2 rows of `exec` are `runMessage` at the machine's configuration. -/
theorem exec_toInstr (m : Message) (s : State) : exec m.toInstr s = .next (runMessage Config.platform m s) := by
  cases m <;> rfl

/-- `Dispatch` is the validator followed by the operation it selects (42_command_validator.md rule R140). -/
theorem dispatch_eq_runMessage (c : Platform) (m : List Byte) (s : State) :
    dispatch c m s = runMessage c (decodeMessage c.toParams m) { s with trace := s.trace ++ [.dispatch m] } := by
  unfold dispatch
  cases decodeMessage c.toParams m <;> rfl

/-- No row stops the block: every arm of `exec` answers a next state (60_exceptions.md rule R186). -/
theorem exec_answers_next (i : Instr) (s : State) : ∃ t, exec i s = .next t := by
  cases i <;> exact ⟨_, rfl⟩

theorem step_answers_next (s : State) : ∃ t, step s = .next t := by
  rcases step_cases s with ⟨i, _, hstep⟩ | ⟨_, hstep⟩
  · rw [hstep]
    exact exec_answers_next i s
  · exact ⟨_, hstep⟩

/-- Settles O34: each arm of `exec` answers a next state, and a step is an arm or the end of a scan. -/
theorem nothingStopsTheBlock : Obligations.NothingStopsTheBlock :=
  ⟨exec_answers_next, step_answers_next⟩

end Sys2Proof.Machine

namespace Sys2Proof.Machine

/-! The four SysEx groups and NONSX (41_reassembler.md section 2). -/

/-- The message after an append is the message before it and the bytes (41_reassembler.md rule R121). -/
theorem message_append (s : State) (vs : List Byte) (hfit : s.cursor + vs.length ≤ 64) :
    State.message { s with rxBuf := writeRx s.rxBuf s.cursor vs, cursor := s.cursor + vs.length } =
      s.message ++ vs :=
  take_writeRx vs s.rxBuf s.cursor hfit

/-- SXCONT with room (41_reassembler.md rule R114). -/
theorem sxcont_of_fits (p1 p2 p3 : Byte) (s : State) (hfit : s.cursor + 3 ≤ 64) :
    sxcont p1 p2 p3 s =
      { s with rxBuf := writeRx s.rxBuf s.cursor [p1, p2, p3], cursor := s.cursor + 3, pos := s.pos + 4 } := by
  rw [sxcont, append_done [p1, p2, p3] s hfit]
  rfl

/-- SXCONT without room (41_reassembler.md rule R119). -/
theorem sxcont_of_overflow (p1 p2 p3 : Byte) (s : State) (hover : 64 < s.cursor + 3) :
    sxcont p1 p2 p3 s = advance 4 (abort .overflow (resetCursor s)) := by
  rw [sxcont, append_overflow [p1, p2, p3] s hover]

/-- A terminal group with room finalizes the appended message (41_reassembler.md rules R115 to R117). -/
theorem terminalGroup_of_fits (c : Platform) (vs : List Byte) (adv : Nat) (s : State)
    (hfit : s.cursor + vs.length ≤ 64) :
    terminalGroup c vs adv s =
      advance adv (finalize c
        { s with rxBuf := writeRx s.rxBuf s.cursor vs, cursor := s.cursor + vs.length }) := by
  simp only [terminalGroup, append_done vs s hfit, if_true]

/-- A terminal group without room discards the message (41_reassembler.md rule R119). -/
theorem terminalGroup_of_overflow (c : Platform) (vs : List Byte) (adv : Nat) (s : State)
    (hover : 64 < s.cursor + vs.length) :
    terminalGroup c vs adv s = advance adv (abort .overflow (resetCursor s)) := by
  simp only [terminalGroup, append_overflow vs s hover, Bool.false_eq_true, if_false]

/-- Settles O1: the append's buffer, message and cursor, and a scan moved by 4. -/
theorem sxcontAppendsThreePayloadBytes : Obligations.SxcontAppendsThreePayloadBytes := by
  intro cable p1 p2 p3 s hfit
  refine ⟨_, (exec_sxcont cable p1 p2 p3 s).trans (congrArg _ (sxcont_of_fits p1 p2 p3 s hfit)), ?buffer, ?message,
    rfl, rfl, rfl, rfl, ?store, rfl, rfl⟩
  case buffer => exact fun j hj => writeRx_getElem [p1, p2, p3] s.rxBuf s.cursor j hj
  case message => exact message_append s [p1, p2, p3] hfit
  case store => exact SameStore.of_eq _ rfl

/-- A row that is a terminal group runs the completed message: the decoded operation on the appended state leaves the
block's scan position alone, so only the cursor and the advance are put over what it leaves. -/
theorem terminalGroupRuns_of_exec {i : Instr} {vs : List Byte} {adv : Nat} {s : State}
    (hexec : exec i s = .next (terminalGroup Config.platform vs adv s)) (hfit : s.cursor + vs.length ≤ 64) :
    TerminalGroupRuns i vs adv s := by
  have hmessage := message_append s vs hfit
  obtain ⟨⟨_, _, _, hpos, _⟩, _⟩ := dispatch_steps Config.platform (s.message ++ vs)
    { s with rxBuf := writeRx s.rxBuf s.cursor vs, cursor := s.cursor + vs.length }
  refine ⟨writeRx s.rxBuf s.cursor vs, dispatch Config.platform (s.message ++ vs)
    { s with rxBuf := writeRx s.rxBuf s.cursor vs, cursor := s.cursor + vs.length }, ?buffer, ?runs, ?result⟩
  case buffer => exact fun j hj => writeRx_getElem vs s.rxBuf s.cursor j hj
  case runs => rw [exec_toInstr, dispatch_eq_runMessage]; rfl
  case result =>
    rw [hexec, terminalGroup_of_fits _ vs adv s hfit, finalize, hmessage, advance]
    simp only [resetCursor_pos, hpos]
    rfl

/-- Settles O2: SXEND3 is a terminal group of three bytes. -/
theorem sxendThreeFinalizesTheMessage : Obligations.SxendThreeFinalizesTheMessage :=
  fun cable p1 p2 p3 s hfit => terminalGroupRuns_of_exec (exec_sxend3 cable p1 p2 p3 s) hfit

/-- Settles O3: SXEND2 is a terminal group of two bytes. -/
theorem sxendTwoFinalizesTheMessage : Obligations.SxendTwoFinalizesTheMessage :=
  fun cable p1 p2 pad3 s hfit => terminalGroupRuns_of_exec (exec_sxend2 cable p1 p2 pad3 s) hfit

/-- Settles O4: SXEND1 is a terminal group of one byte. -/
theorem sxendOneFinalizesTheMessage : Obligations.SxendOneFinalizesTheMessage :=
  fun cable p1 pad2 pad3 s hfit => terminalGroupRuns_of_exec (exec_sxend1 cable p1 pad2 pad3 s) hfit

/-- A row that is a terminal group overflows when its bytes do not fit. -/
theorem groupOverflows_of_exec {i : Instr} {vs : List Byte} {adv : Nat} {s : State}
    (hexec : exec i s = .next (terminalGroup Config.platform vs adv s)) (hover : 64 < s.cursor + vs.length) :
    GroupOverflows i adv s := by
  rw [GroupOverflows, hexec, terminalGroup_of_overflow _ vs adv s hover]
  rfl

/-- Settles O5: SXCONT by its own overflow, the three terminal groups by theirs. -/
theorem overflowingGroupDiscardsTheMessage : Obligations.OverflowingGroupDiscardsTheMessage := by
  intro cable p1 p2 p3 s
  refine ⟨fun hover => ⟨?sxcont, ?sxend3⟩, ?sxend2, ?sxend1⟩
  case sxcont =>
    rw [GroupOverflows, exec_sxcont, sxcont_of_overflow p1 p2 p3 s hover]
    rfl
  case sxend3 => exact groupOverflows_of_exec (exec_sxend3 cable p1 p2 p3 s) hover
  case sxend2 => exact groupOverflows_of_exec (exec_sxend2 cable p1 p2 p3 s)
  case sxend1 => exact groupOverflows_of_exec (exec_sxend1 cable p1 p2 p3 s)

/-- Settles O6: both rows are `nonsx`, whatever their CIN. -/
theorem nonsxAbortsAndEndsTheScan : Obligations.NonsxAbortsAndEndsTheScan := by
  intro cable lo hi p1 p2 p3 s t
  rw [exec_nonsxLo, exec_nonsxHi, nonsx_eq]
  exact ⟨rfl, rfl⟩

end Sys2Proof.Machine

namespace Sys2Proof.Machine

/-! The validator (42_command_validator.md section 1): what each of its checks means, and what a message that fails one
decodes to. -/

theorem markersOk_iff (m : List Byte) :
    markersOk m = true ↔ m.head? = some Config.sox ∧ m.getLast? = some Config.eox := by
  simp [markersOk]

theorem manufOk_iff (c : Params) (m : List Byte) : manufOk c m = true ↔ m[1]? = some (idByte c.manufId) := by
  simp [manufOk]

theorem decodeMessage_of_invalid (c : Params) (m : List Byte) (hinvalid : ¬(markersOk m && manufOk c m) = true) :
    decodeMessage c m = .invalidMsg m := by
  rw [decodeMessage, if_neg hinvalid]

theorem decodeMessage_of_unknown (c : Params) (m : List Byte) (hvalid : (markersOk m && manufOk c m) = true)
    (hdump : m[2]? ≠ some (idByte c.cmdDump)) (herase : m[2]? ≠ some (idByte c.cmdErase))
    (hwrite : m[2]? ≠ some (idByte c.cmdWrite)) : decodeMessage c m = .unknown (m.drop 2).dropLast := by
  rw [decodeMessage, if_pos hvalid, if_neg hdump, if_neg herase, if_neg hwrite]

theorem invalidMessage_of_markers (m : List Byte) (s : State) (h : markersOk m = true) :
    invalidMessage m s = abort .badManuf s := by
  rw [invalidMessage, if_pos h]

theorem invalidMessage_of_no_markers (m : List Byte) (s : State) (h : ¬markersOk m = true) :
    invalidMessage m s = abort .badMarkers s := by
  rw [invalidMessage, if_neg h]

theorem not_markersOk_of_or {m : List Byte}
    (h : m.head? ≠ some Config.sox ∨ m.getLast? ≠ some Config.eox) : ¬markersOk m = true := by
  rw [markersOk_iff, not_and_or]
  exact h

/-- Settles O12: UNKNOWN records its name. -/
theorem unknownCommandDoesNothing : Obligations.UnknownCommandDoesNothing := exec_unknown

/-- Settles O13: the marker check tells the two outcomes apart. -/
theorem invalidMessageDoesNothing : Obligations.InvalidMessageDoesNothing := by
  intro msg s
  constructor
  · intro hmarkers
    rw [exec_invalidMsg, invalidMessage_of_no_markers msg s (not_markersOk_of_or hmarkers)]
    rfl
  · intro hsox heox
    rw [exec_invalidMsg, invalidMessage_of_markers msg s ((markersOk_iff msg).mpr ⟨hsox, heox⟩)]
    rfl

/-- Settles O14: the first failing check decides what the message decodes to, and that decides the name. -/
theorem validatorRejectsInOrder : Obligations.ValidatorRejectsInOrder := by
  intro c m s rejected
  have hrejected (r : AbortReason) : abort r { s with trace := s.trace ++ [.dispatch m] } = rejected r := by
    simp only [abort, rejected, List.append_assoc, List.singleton_append]
  refine ⟨fun hmarkers => ?badMarkers, fun hsox heox hmanuf => ?badManuf,
    fun hsox heox hmanuf hdump herase hwrite => ?unknownCmd⟩
  case badMarkers =>
    have hno := not_markersOk_of_or hmarkers
    rw [dispatch_eq_runMessage, decodeMessage_of_invalid _ m (by simp [hno]), runMessage,
      invalidMessage_of_no_markers m _ hno, hrejected]
  case badManuf =>
    have hmarkers := (markersOk_iff m).mpr ⟨hsox, heox⟩
    have hno : ¬manufOk c.toParams m = true := by rwa [manufOk_iff]
    rw [dispatch_eq_runMessage, decodeMessage_of_invalid _ m (by simp [hno]), runMessage,
      invalidMessage_of_markers m _ hmarkers, hrejected]
  case unknownCmd =>
    have hvalid : (markersOk m && manufOk c.toParams m) = true := by
      rw [Bool.and_eq_true]
      exact ⟨(markersOk_iff m).mpr ⟨hsox, heox⟩, (manufOk_iff _ m).mpr hmanuf⟩
    rw [dispatch_eq_runMessage, decodeMessage_of_unknown _ m hvalid hdump herase hwrite, runMessage, unknownCommand,
      hrejected]

end Sys2Proof.Machine

namespace Sys2Proof.Machine

/-! The three commands: which requests are refused, and what the others make of the store (42_command_validator.md
section 2). -/

theorem writePage_of_short (c : Platform) (ps : List Byte) (s : State) (hshort : ps.length < 33) :
    writePage c ps s = abort .shortParams s := by
  unfold writePage
  rw [if_pos hshort]

theorem eraseAll_of_short (c : Platform) (ps : List Byte) (s : State) (hshort : ps.length < 2) :
    eraseAll c ps s = abort .badMagic s := by
  match ps, hshort with
  | [], _ => rfl
  | [_], _ => rfl

theorem eraseAll_of_other_magic (c : Platform) (m0 m1 : Byte) (ps : List Byte) (s : State)
    (hmagic : ¬(m0 = Config.eraseMagic0 ∧ m1 = Config.eraseMagic1)) :
    eraseAll c (m0 :: m1 :: ps) s = abort .badMagic s := by
  rw [eraseAll, if_neg hmagic]

/-- Settles O11: each refused request records its name and nothing else. -/
theorem shortOrUnmagicRequestsDoNothing : Obligations.ShortOrUnmagicRequestsDoNothing := by
  intro ps m0 m1 s
  refine ⟨rfl, fun hshort => ?write, fun hshort => ?eraseShort, fun hmagic => ?eraseMagic⟩
  case write => rw [exec_writePage, writePage_of_short _ ps s hshort]; rfl
  case eraseShort => rw [exec_eraseAll, eraseAll_of_short _ ps s hshort]; rfl
  case eraseMagic =>
    rw [exec_eraseAll, eraseAll_of_other_magic _ m0 m1 ps s fun h => hmagic (Prod.ext h.1 h.2)]
    rfl

/-- Settles O18: ENCODE is `emit` of its message. -/
theorem encodeHandsOverOneWrite : Obligations.EncodeHandsOverOneWrite := by
  intro msg s
  refine ⟨fun hmsg => ?_, rfl⟩
  rw [exec_encode, emit_eq_record _ msg s hmsg]

/-- The page address as a product of naturals, which is how 20_memory.md rule R44 writes it. -/
theorem pageAddress_eq_ofNat (page : Byte) : pageAddress page = BitVec.ofNat 16 (16 * page.toNat) := by
  have hpage : page.toNat < 256 := page.isLt
  apply BitVec.eq_of_toNat_eq
  rw [pageAddress_toNat, BitVec.toNat_ofNat]
  omega

/-- The pages of the store are those below 64 (20_memory.md rule R46). -/
theorem inStore_pageAddress_iff (page : Byte) : inStore (pageAddress page) = true ↔ page.toNat < 64 := by
  rw [inStore_iff, pageAddress_toNat]
  omega

/-- A read of a page of the store leaves the store alone (20_memory.md rule R50). -/
theorem storeAfter_read_inStore (c : Platform) (n : Nat) (addr : Addr) (st : Status) (m : Memory)
    (hin : inStore addr = true) : storeAfter c n (.read addr) st m = m := by
  simp only [storeAfter, hin, if_true]

/-- A read of a page of the store returns the bytes that stand there (20_memory.md rule R50). -/
theorem readPage_inStore (c : Platform) (n : Nat) (addr : Addr) (m : Memory) (hin : inStore addr = true) :
    readPage c n addr m = Vector.ofFn fun i : Fin 16 => Memory.read c.storeInitial m (addr.toNat + i.val) := by
  simp only [readPage, hin, if_true]

/-- A write to a page of the store that answers `ok` puts the data there, byte by byte (20_memory.md rule R50). -/
theorem read_storeAfter_write_ok (c : Platform) (n : Nat) (addr : Addr) (data : Page) (m : Memory)
    (hin : inStore addr = true) (hwf : Memory.wf c.storeInitial m) (i : Nat) (hi : i < 16) :
    Memory.read c.storeInitial (storeAfter c n (.write addr data) .ok m) (addr.toNat + i) = data[i] := by
  have hend := (inStore_iff addr).mp hin
  simp only [storeAfter, hin, if_true]
  rw [Memory.read_writeBytes _ _ _ _ hwf (by rw [Vector.length_toList]; exact hend)]
  simp [hi]

/-- A write to a page of the store leaves every byte outside the page alone, whatever its status (20_memory.md rule R50,
93_implementation_defined.md U5). -/
theorem read_storeAfter_write_outside (c : Platform) (n : Nat) (addr : Addr) (data : Page) (st : Status) (m : Memory)
    (hin : inStore addr = true) (hwf : Memory.wf c.storeInitial m) (a : Nat)
    (ha : a < addr.toNat ∨ addr.toNat + 16 ≤ a) :
    Memory.read c.storeInitial (storeAfter c n (.write addr data) st m) a = Memory.read c.storeInitial m a := by
  have hend := (inStore_iff addr).mp hin
  have houtside (bs : List Byte) (hlength : bs.length = 16) :
      Memory.read c.storeInitial (Memory.writeBytes c.storeInitial m addr.toNat bs) a =
        Memory.read c.storeInitial m a := by
    rw [Memory.read_writeBytes _ bs m _ hwf (by omega)]
    split
    · rw [List.getElem?_eq_none (by omega), Option.getD_none]
    · rfl
  simp only [storeAfter, hin, if_true]
  cases st with
  | ok => exact houtside _ (Vector.length_toList)
  | fail => exact houtside _ (by rw [List.length_map, List.length_range])

/-- An erase that answers `ok` leaves the pattern in every byte of the store (20_memory.md rule R50). -/
theorem read_storeAfter_erase_ok (c : Platform) (n : Nat) (m : Memory) (a : Nat) (ha : a < 1024) :
    Memory.read c.storeInitial (storeAfter c n .eraseAll .ok m) a = c.erasePattern := by
  simp only [storeAfter]
  rw [Memory.read_tabulate, if_pos ha]

/-- Beyond the store a canonical memory reads as unlisted. -/
theorem Memory.read_beyond (d : Nat → Byte) (m : Memory) (hwf : Memory.wf d m) (a : Nat) (ha : 1024 ≤ a) :
    Memory.read d m a = d a := by
  induction m with
  | nil => rfl
  | cons p m ih =>
    obtain ⟨k, v⟩ := p
    have hk : k < 1024 := (hwf.2 (k, v) List.mem_cons_self).1
    rw [Memory.read, if_neg (by omega)]
    exact ih (Memory.wf_tail d _ m hwf)

/-- What `DUMP_PAGE` with a page launches and records, whatever the page (42_command_validator.md rules R147, R155). -/
theorem dumpPage_cons_effect (c : Platform) (page : Byte) (rest : List Byte) (s : State) :
    let q := StorageRequest.read (pageAddress page)
    let status := c.storageStatus s.draws q s.store
    let t := dumpPage c (page :: rest) s
    SameBlock s t ∧ t.store = storeAfter c s.draws q status s.store ∧
      t.trace = s.trace ++ .storage q status ::
        (match status with
          | .ok => [replyEvent c (s.draws + 1)
              (dumpReply c.toParams page (readPage c s.draws (pageAddress page) s.store))]
          | .fail => [.abort .storageFail]) ∧
      t.draws = s.draws + (match status with
        | .ok => 2
        | .fail => 1) := by
  intro q status t
  refine ⟨(dumpPage_steps c _ s).1, ?_⟩
  have ht : t = _ := dumpPage_cons c page rest s
  rw [ht]
  cases hstatus : c.storageStatus s.draws (.read (pageAddress page)) s.store with
  | ok => simp [status, q, hstatus, emit_eq_record _ _ _ (dumpReply_ne_nil _ _ _)]
  | fail => simp [status, q, hstatus]

/-- The page dumped, as nibbles by index (30_encoding.md rule R75). -/
theorem splitPage_readPage_inStore (c : Platform) (n : Nat) (addr : Addr) (m : Memory) (hin : inStore addr = true) :
    splitPage (readPage c n addr m) = (List.range 16).flatMap fun i =>
      [hiNibble (Memory.read c.storeInitial m (addr.toNat + i)),
        loNibble (Memory.read c.storeInitial m (addr.toNat + i))] := by
  rw [splitPage_eq_flatMap_range, readPage_inStore c n addr m hin]
  refine List.flatMap_congr fun i hi => ?_
  have hi : i < 16 := List.mem_range.mp hi
  simp [hi]

/-- Settles O7: the effect of a dump, at a page whose reads leave and return the store. -/
theorem dumpPageReadsThePageAndReplies : Obligations.DumpPageReadsThePageAndReplies := by
  intro page rest s hpage q status nibbles reply
  have hin := (inStore_pageAddress_iff page).mpr hpage
  have hreply : reply = dumpReply Config.platform.toParams page
      (readPage Config.platform s.draws (pageAddress page) s.store) := by
    rw [dumpReply, splitPage_readPage_inStore _ _ _ _ hin, pageAddress_toNat, Nat.mul_comm page.toNat 16]
    rfl
  obtain ⟨hblock, hstore, htrace, hdraws⟩ := dumpPage_cons_effect Config.platform page rest s
  rw [storeAfter_read_inStore _ _ _ _ _ hin] at hstore
  rw [hreply]
  simp only [status, q]
  rw [← pageAddress_eq_ofNat]
  exact ⟨_, exec_dumpPage _ s, hblock, SameStore.of_eq _ hstore, htrace, hdraws⟩

/-- Settles O8: the transaction and the reply are those of every acknowledged request; the store is tabulated. -/
theorem eraseAllErasesTheStoreAndReplies : Obligations.EraseAllErasesTheStoreAndReplies := by
  intro rest s
  refine ⟨exec_eraseAll _ s, ?_⟩
  intro c t
  have ht : t = acknowledge c (eraseReply c.toParams) (c.storageStatus s.draws .eraseAll s.store)
      (storageCall c .eraseAll s).2 := eraseAll_magic c rest s
  have hstore : t.store = storeAfter c s.draws .eraseAll (c.storageStatus s.draws .eraseAll s.store) s.store := by
    rw [ht, acknowledge_store, storageCall_store]
  refine ⟨?acknowledged, fun hok a ha => ?erased, fun hwf a ha => ?outside⟩
  case acknowledged => rw [ht]; exact storageCall_acknowledged c .eraseAll _ s (eraseReply_ne_nil _)
  case erased => rw [State.storeByte, hstore, hok, read_storeAfter_erase_ok c _ _ a ha]
  case outside =>
    rw [State.storeByte, State.storeByte, hstore, Memory.read_beyond _ _ hwf a ha,
      Memory.read_beyond _ _ (storeAfter_wf c _ _ _ _ hwf) a ha]

/-- The 16 bytes that a write request's nibbles join to (30_encoding.md rule R70). -/
theorem getElem_joinPage (nibbles : List Byte) (i : Nat) (hi : i < 16) :
    (joinPage nibbles)[i] = (nibbles.getD (2 * i) 0 <<< 4) ||| nibbles.getD (2 * i + 1) 0 := by
  rw [joinPage, Vector.getElem_ofFn, joinNibbles]

/-- The store after `WRITE_PAGE` with enough parameters is the one its transaction leaves. -/
theorem writePage_cons_store (c : Platform) (page : Byte) (nibbles : List Byte) (s : State) (h : 32 ≤ nibbles.length) :
    (writePage c (page :: nibbles) s).store =
      storeAfter c s.draws (.write (pageAddress page) (joinPage nibbles))
        (c.storageStatus s.draws (.write (pageAddress page) (joinPage nibbles)) s.store) s.store := by
  rw [writePage_cons c page nibbles s h, acknowledge_store, storageCall_store]

/-- `WRITE_PAGE` with enough parameters is an acknowledged request, whatever the page (42_command_validator.md rules
R149, R155). -/
theorem writePage_cons_acknowledged (c : Platform) (page : Byte) (nibbles : List Byte) (s : State)
    (h : 32 ≤ nibbles.length) :
    Acknowledged c (.write (pageAddress page) (joinPage nibbles)) (writeReply c.toParams) s
      (writePage c (page :: nibbles) s) := by
  rw [writePage_cons c page nibbles s h]
  exact storageCall_acknowledged c _ _ s (writeReply_ne_nil _)

/-- Settles O9: an acknowledged request whose transaction writes inside the store. -/
theorem writePageStoresThePageAndReplies : Obligations.WritePageStoresThePageAndReplies := by
  intro page nibbles s hpage hlength
  refine ⟨exec_writePage _ s, ?_⟩
  intro c hwf q t
  have hin := (inStore_pageAddress_iff page).mpr hpage
  have hstore : t.store = storeAfter c s.draws q (c.storageStatus s.draws q s.store) s.store :=
    writePage_cons_store c page nibbles s hlength
  refine ⟨writePage_cons_acknowledged c page nibbles s hlength, fun hok i hi => ?written, fun a ha => ?outside⟩
  case written =>
    rw [State.storeByte, hstore, hok, read_storeAfter_write_ok c _ _ _ _ hin hwf i hi, getElem_joinPage]
  case outside =>
    rw [State.storeByte, State.storeByte, hstore, read_storeAfter_write_outside c _ _ _ _ _ hin hwf a ha]

/-- Settles O10: neither the dump's nor the write's effect asks where the page lies. -/
theorem pagesOutsideTheStoreArePassedOn : Obligations.PagesOutsideTheStoreArePassedOn := by
  intro page rest nibbles s _ hlength
  refine ⟨exec_dumpPage _ s, exec_writePage _ s, fun c => ?_⟩
  intro addr status reply t
  simp only [addr, status, reply]
  rw [← pageAddress_eq_ofNat]
  obtain ⟨hblock, _, htrace, hdraws⟩ := dumpPage_cons_effect c page rest s
  exact ⟨⟨hblock, htrace, hdraws⟩, writePage_cons_acknowledged c page nibbles s hlength⟩

end Sys2Proof.Machine

namespace Sys2Proof.Machine

/-! `Encode` and its inverse (40_sysex_codec.md). -/

/-- The CIN of an emitted header (40_sysex_codec.md rule R97). -/
@[simp] theorem cinOf_headerByte (cable cin : Nibble) : cinOf (headerByte cable cin) = cin := by
  rw [cinOf, headerByte, BitVec.extractLsb'_append_eq_right]

/-- The cable of an emitted header (40_sysex_codec.md rule R97). -/
@[simp] theorem cableOf_headerByte (cable cin : Nibble) : cableOf (headerByte cable cin) = cable := by
  rw [cableOf, headerByte, BitVec.extractLsb'_append_eq_left]

/-- A header is its cable and its CIN (30_encoding.md rule R60). -/
theorem headerByte_cableOf_cinOf (b0 : Byte) : headerByte (cableOf b0) (cinOf b0) = b0 := by
  rw [headerByte, cableOf, cinOf, BitVec.extractLsb'_append_extractLsb'_eq_extractLsb' (by rfl : 4 = 0 + 4),
    BitVec.extractLsb'_eq_self]

/-- An emitted group carries the bytes its CIN stands for. -/
theorem groupPayloads_encoded (cable : Nibble) {cin : Nibble} {k : Nat} {terminal : Bool}
    (hshape : inverseShape cin = some (k, terminal)) (b1 b2 b3 : Byte) (rest : List Byte) :
    groupPayloads (headerByte cable cin :: b1 :: b2 :: b3 :: rest) = [b1, b2, b3].take k ++ groupPayloads rest :=
  groupPayloads_of_inverseShape_some (by rw [cinOf_headerByte, hshape])

/-- Settles O22: each group of `Encode` carries exactly the bytes of its stride. -/
theorem payloadsOfTheGroupsAreTheMessage : Obligations.PayloadsOfTheGroupsAreTheMessage := by
  intro cable msg
  fun_induction encodeGroups cable msg with
  | case1 => rfl
  | case2 a => exact groupPayloads_encoded cable inverseShape_cinEnd1 _ _ _ []
  | case3 a b => exact groupPayloads_encoded cable inverseShape_cinEnd2 _ _ _ []
  | case4 a b d => exact groupPayloads_encoded cable inverseShape_cinEnd3 _ _ _ []
  | case5 a b d e rest ih =>
    exact (groupPayloads_encoded cable inverseShape_cinCont a b d _).trans (congrArg _ ih)

/-- The CIN of the terminal group of a message (40_sysex_codec.md rules R93 to R95). -/
def terminalCin (n : Nat) : Nibble :=
  if n % 3 = 1 then Config.cinEnd1 else if n % 3 = 2 then Config.cinEnd2 else Config.cinEnd3

/-- The terminal group of a message of this length that has these bytes left, padded (40_sysex_codec.md rule R96). -/
def terminalBytes (cable : Nibble) (n : Nat) (last : List Byte) : List Byte :=
  headerByte cable (terminalCin n) :: (last ++ List.replicate (3 - last.length) Config.txPad)

/-- The SXCONT groups of the first `k` strides of a message (40_sysex_codec.md rule R99). -/
def contGroups (cable : Nibble) (msg : List Byte) (k : Nat) : List Byte :=
  (List.range k).flatMap fun k =>
    [headerByte cable Config.cinCont, msg.getD (3 * k) 0, msg.getD (3 * k + 1) 0, msg.getD (3 * k + 2) 0]

/-- One stride more in front is one SXCONT more in front. -/
theorem contGroups_succ (cable : Nibble) (a b d : Byte) (rest : List Byte) (k : Nat) :
    contGroups cable (a :: b :: d :: rest) (k + 1) =
      [headerByte cable Config.cinCont, a, b, d] ++ contGroups cable rest k := by
  simp [contGroups, List.range_succ_eq_map, List.flatMap_map, Nat.mul_succ]

/-- Settles O21: by the strides of `Encode`; a stride more adds 1 to the number of groups and leaves the rest of the
division by 3, and so the terminal group, as it was. -/
theorem encodeClosedForm : Obligations.EncodeClosedForm := by
  intro cable msg hmsg
  show encodeGroups cable msg = contGroups cable msg ((msg.length + 2) / 3 - 1) ++
    terminalBytes cable msg.length (msg.drop (3 * ((msg.length + 2) / 3 - 1)))
  fun_induction encodeGroups cable msg with
  | case1 => exact absurd hmsg (by simp)
  | case2 a => simp [contGroups, terminalBytes, terminalCin]
  | case3 a b => simp [contGroups, terminalBytes, terminalCin]
  | case4 a b d => simp [contGroups, terminalBytes, terminalCin]
  | case5 a b d e rest ih =>
    obtain ⟨q, hq⟩ : ∃ q, ((e :: rest).length + 2) / 3 = q + 1 := ⟨_, (Nat.succ_pred (by simp)).symm⟩
    have hstrides : ((a :: b :: d :: e :: rest).length + 2) / 3 - 1 = q + 1 := by
      simp only [List.length_cons] at hq ⊢
      omega
    have hterminal : terminalCin (a :: b :: d :: e :: rest).length = terminalCin (e :: rest).length := by
      rw [terminalCin, show (a :: b :: d :: e :: rest).length = (e :: rest).length + 3 from rfl, Nat.add_mod_right]
      rfl
    have hdrop : (a :: b :: d :: e :: rest).drop (3 * (q + 1)) = (e :: rest).drop (3 * q) := by
      rw [Nat.mul_succ, Nat.add_comm, ← List.drop_drop]
      rfl
    rw [ih (by simp), hstrides, contGroups_succ, hdrop, hq, terminalBytes, terminalBytes, hterminal]
    rfl

/-! The nibble join (30_encoding.md rule R70). -/

theorem joinNibbles_toNat (h l : Byte) : (joinNibbles h l).toNat = ((h.toNat <<< 4) ||| l.toNat) % 256 := by
  have hl : l.toNat % 2 ^ 8 = l.toNat := Nat.mod_eq_of_lt l.isLt
  rw [joinNibbles, BitVec.toNat_or, BitVec.toNat_shiftLeft]
  calc h.toNat <<< 4 % 2 ^ 8 ||| l.toNat
      = h.toNat <<< 4 % 2 ^ 8 ||| l.toNat % 2 ^ 8 := by rw [hl]
    _ = ((h.toNat <<< 4) ||| l.toNat) % 2 ^ 8 := (Nat.or_mod_two_pow).symm

/-- The two nibbles of a byte join to the byte: the formula is `16 * (d / 16) + d % 16`. -/
theorem joinNibbles_split (d : Byte) : joinNibbles (hiNibble d) (loNibble d) = d := by
  have hd : d.toNat < 256 := d.isLt
  apply BitVec.eq_of_toNat_eq
  rw [joinNibbles_toNat, hiNibble_toNat, loNibble_toNat, Nat.shiftLeft_eq, Nat.mul_comm,
    ← Nat.two_pow_add_eq_or_of_lt (i := 4) (by omega)]
  omega

/-- The nibbles of the bytes of a list stand in pairs, the high one first. -/
theorem getElem?_flatMap_pair {α β : Type} (f g : α → β) (l : List α) (i : Nat) :
    (l.flatMap fun d => [f d, g d])[2 * i]? = l[i]?.map f ∧
      (l.flatMap fun d => [f d, g d])[2 * i + 1]? = l[i]?.map g := by
  induction l generalizing i with
  | nil => simp
  | cons d l ih =>
    cases i with
    | zero => simp
    | succ i => simpa [Nat.mul_succ] using ih i

theorem splitPage_append_getD (data : Page) (rest : List Byte) (i : Nat) (hi : i < 16) :
    (splitPage data ++ rest).getD (2 * i) 0 = hiNibble data[i] ∧
      (splitPage data ++ rest).getD (2 * i + 1) 0 = loNibble data[i] := by
  have hlength := Laws.EncodedLength.splitPage_length data
  obtain ⟨hhi, hlo⟩ := getElem?_flatMap_pair hiNibble loNibble data.toList i
  rw [List.getD_eq_getElem?_getD, List.getD_eq_getElem?_getD, List.getElem?_append_left (by omega),
    List.getElem?_append_left (by omega), splitPage, hhi, hlo]
  simp [hi]

/-- The join undoes the split, whatever bytes stand behind the page. -/
theorem joinPage_splitPage_append (data : Page) (rest : List Byte) : joinPage (splitPage data ++ rest) = data := by
  ext i hi
  obtain ⟨hhi, hlo⟩ := splitPage_append_getD data rest i hi
  rw [joinPage, Vector.getElem_ofFn, hhi, hlo, joinNibbles_split]

/-- Settles O25: the low 8 bits of the formula, and the two nibbles of a byte. -/
theorem nibbleJoinUndoesTheSplit : Obligations.NibbleJoinUndoesTheSplit :=
  ⟨joinNibbles_toNat, joinPage_splitPage_append⟩

end Sys2Proof.Machine

namespace Sys2Proof

open Machine

/-! Groups: decode and encode (30_encoding.md section 1). -/

theorem decode_groupBytes {i : Instr} {cable cin : Nibble} {p1 p2 p3 : Byte}
    (hrow : decodeGroup (headerByte cable cin) p1 p2 p3 = i) (rest : List Byte) :
    decode (groupBytes cable cin p1 p2 p3 ++ rest) = .ok (i, rest) := by
  rw [← hrow]
  rfl

/-- What four bytes decode to is a group, and it encodes to them: the row keeps every bit of the group. -/
theorem encode_decodeGroup (c : Params) (b0 b1 b2 b3 : Byte) :
    (decodeGroup b0 b1 b2 b3).isGroup = true ∧ encode c (decodeGroup b0 b1 b2 b3) = [b0, b1, b2, b3] := by
  have hbytes {cin : Nibble} (hcin : cin = cinOf b0) :
      groupBytes (cableOf b0) cin b1 b2 b3 = [b0, b1, b2, b3] := by
    rw [hcin, groupBytes, headerByte_cableOf_cinOf]
  have hlow : ∀ cin : Nibble, cin.extractLsb' 2 2 = 0 → (cin.extractLsb' 0 2).zeroExtend 4 = cin := by decide
  have htop : ∀ cin : Nibble, cin.extractLsb' 3 1 = 1 → ((1 : BitVec 1) ++ cin.extractLsb' 0 3 : BitVec 4) = cin := by
    decide
  rcases cin_rows_exhaustive (cinOf b0) with h | h | h | h | h | h
  · rw [decodeGroup_of_cinCont h]
    exact ⟨rfl, hbytes h.symm⟩
  · rw [decodeGroup_of_cinEnd1 h]
    exact ⟨rfl, hbytes h.symm⟩
  · rw [decodeGroup_of_cinEnd2 h]
    exact ⟨rfl, hbytes h.symm⟩
  · rw [decodeGroup_of_cinEnd3 h]
    exact ⟨rfl, hbytes h.symm⟩
  · rw [decodeGroup_of_cin_high_bits_zero h]
    exact ⟨rfl, hbytes (hlow _ h)⟩
  · rw [decodeGroup_of_cin_top_bit_one h]
    exact ⟨rfl, hbytes (htop _ h)⟩

/-- A group decodes to itself, whatever bytes stand behind it: its header selects its row and keeps its cable. -/
theorem decode_encode_of_isGroup (c : Params) (i : Instr) (rest : List Byte) (hgroup : i.isGroup = true) :
    decode (encode c i ++ rest) = .ok (i, rest) := by
  have hlow : ∀ cin : BitVec 2, (cin.zeroExtend 4).extractLsb' 2 2 = 0 ∧ (cin.zeroExtend 4).extractLsb' 0 2 = cin := by
    decide
  have htop : ∀ cin : BitVec 3, ((1 : BitVec 1) ++ cin : BitVec 4).extractLsb' 3 1 = 1 ∧
      ((1 : BitVec 1) ++ cin : BitVec 4).extractLsb' 0 3 = cin := by decide
  cases i
  case sxcont cable p1 p2 p3 =>
    exact decode_groupBytes (by rw [decodeGroup_of_cinCont (cinOf_headerByte cable _), cableOf_headerByte]) rest
  case sxend1 cable p1 p2 p3 =>
    exact decode_groupBytes (by rw [decodeGroup_of_cinEnd1 (cinOf_headerByte cable _), cableOf_headerByte]) rest
  case sxend2 cable p1 p2 p3 =>
    exact decode_groupBytes (by rw [decodeGroup_of_cinEnd2 (cinOf_headerByte cable _), cableOf_headerByte]) rest
  case sxend3 cable p1 p2 p3 =>
    exact decode_groupBytes (by rw [decodeGroup_of_cinEnd3 (cinOf_headerByte cable _), cableOf_headerByte]) rest
  case nonsxLo cable cin p1 p2 p3 =>
    obtain ⟨hhigh, hcin⟩ := hlow cin
    refine decode_groupBytes ?_ rest
    rw [decodeGroup_of_cin_high_bits_zero ((cinOf_headerByte cable _).symm ▸ hhigh), cableOf_headerByte,
      cinOf_headerByte, hcin]
  case nonsxHi cable cin p1 p2 p3 =>
    obtain ⟨htopBit, hcin⟩ := htop cin
    refine decode_groupBytes ?_ rest
    rw [decodeGroup_of_cin_top_bit_one ((cinOf_headerByte cable _).symm ▸ htopBit), cableOf_headerByte,
      cinOf_headerByte, hcin]
  all_goals exact absurd hgroup Bool.false_ne_true

/-- Settles O30: the two directions. -/
theorem groupsDecodeToWhatTheyEncode : Obligations.GroupsDecodeToWhatTheyEncode :=
  ⟨decode_encode_of_isGroup, encode_decodeGroup⟩

/-- Settles O29: five words, evaluated. -/
theorem sampleWordsDecode : Obligations.SampleWordsDecode := by
  unfold Obligations.SampleWordsDecode
  decide

end Sys2Proof

namespace Sys2Proof

open Machine

/-! Ids and messages (00_scope.md rule R8, 30_encoding.md section 2). -/

theorem idByte_toNat (v : Id7) : (idByte v).toNat = v.toNat := by
  have hv : v.toNat < 128 := v.isLt
  rw [idByte, BitVec.toNat_setWidth, Nat.mod_eq_of_lt (by omega)]

theorem idByte_injective : Function.Injective idByte := by
  intro v w h
  apply BitVec.eq_of_toNat_eq
  rw [← idByte_toNat v, ← idByte_toNat w, h]

/-- An id is no byte above 7F, so no marker. -/
theorem idByte_ne_of_lt (v : Id7) (b : Byte) (hb : 0x7F < b.toNat) : idByte v ≠ b := by
  intro h
  have hv : v.toNat < 128 := v.isLt
  rw [← h, idByte_toNat] at hb
  omega

/-- Settles O32: the six ids are a permutation's images of six values; an id byte is below 80. -/
theorem configuredIdsAreAdmitted : Obligations.ConfiguredIdsAreAdmitted := by
  constructor
  · have hcodes : ([0, 1, 2, 3, 4, 5] : List Id7).Nodup := by decide
    exact hcodes.map Config.idCode.injective
  · intro v
    have hv : v.toNat < 128 := v.isLt
    exact ⟨by rw [idByte_toNat]; omega, idByte_ne_of_lt v _ (by decide), idByte_ne_of_lt v _ (by decide)⟩

/-- Both checks of the validator are passed by exactly the messages with a body (30_encoding.md rule R67): between the
start marker with the manufacturer id and the end marker, which no id is, there may be any bytes. -/
theorem valid_iff_exists_messageBytes (c : Params) (m : List Byte) :
    (markersOk m && manufOk c m) = true ↔ ∃ body, m = messageBytes c body := by
  rw [Bool.and_eq_true, markersOk_iff, manufOk_iff]
  constructor
  · rintro ⟨⟨hsox, heox⟩, hmanuf⟩
    match m, hsox, hmanuf with
    | b0 :: b1 :: rest, hsox, hmanuf =>
      obtain rfl : b0 = Config.sox := by simpa using hsox
      obtain rfl : b1 = idByte c.manufId := by simpa using hmanuf
      rcases List.eq_nil_or_concat' rest with rfl | ⟨body, last, rfl⟩
      · exact absurd (by simpa using heox) (idByte_ne_of_lt c.manufId Config.eox (by decide))
      · rw [← List.cons_append, ← List.cons_append, List.getLast?_concat] at heox
        obtain rfl : last = Config.eox := Option.some.inj heox
        exact ⟨body, rfl⟩
  · rintro ⟨body, rfl⟩
    exact ⟨⟨rfl, List.getLast?_concat⟩, rfl⟩

theorem messageBytes_valid (c : Params) (body : List Byte) :
    (markersOk (messageBytes c body) && manufOk c (messageBytes c body)) = true :=
  (valid_iff_exists_messageBytes c _).mpr ⟨body, rfl⟩

/-- The 3-byte message: where a command id stands in others, it has its end marker (42_command_validator.md rule
R144). -/
theorem decodeMessage_messageBytes_nil (c : Params) : decodeMessage c (messageBytes c []) = .unknown [] := by
  have hid (v : Id7) : (messageBytes c [])[2]? ≠ some (idByte v) := by
    simpa [messageBytes] using (idByte_ne_of_lt v Config.eox (by decide)).symm
  exact decodeMessage_of_unknown c _ (messageBytes_valid c []) (hid _) (hid _) (hid _)

/-- A message with a body: its first byte selects the operation, the others are the operand (42_command_validator.md
rule R143). -/
theorem decodeMessage_messageBytes_cons (c : Params) (b : Byte) (ps : List Byte) :
    decodeMessage c (messageBytes c (b :: ps)) =
      if b = idByte c.cmdDump then .dumpPage ps
      else if b = idByte c.cmdErase then .eraseAll ps
      else if b = idByte c.cmdWrite then .writePage ps
      else .unknown (b :: ps) := by
  have hid : (messageBytes c (b :: ps))[2]? = some b := rfl
  have hparams : ((messageBytes c (b :: ps)).drop 3).dropLast = ps := List.dropLast_concat
  have hbody : ((messageBytes c (b :: ps)).drop 2).dropLast = b :: ps := List.dropLast_concat
  rw [decodeMessage, if_pos (messageBytes_valid c _), hid, hparams, hbody]
  simp only [Option.some.injEq]

theorem isCommandId_eq_false_iff (c : Params) (b : Byte) :
    isCommandId c b = false ↔ b ≠ idByte c.cmdDump ∧ b ≠ idByte c.cmdErase ∧ b ≠ idByte c.cmdWrite := by
  simp [isCommandId, and_assoc]

/-- The command ids of an admitted configuration are distinct bytes (00_scope.md rule R8 (b)). -/
theorem commandIds_distinct {c : Params} (hadm : c.Admitted) :
    idByte c.cmdErase ≠ idByte c.cmdDump ∧ idByte c.cmdWrite ≠ idByte c.cmdDump ∧
      idByte c.cmdWrite ≠ idByte c.cmdErase := by
  obtain ⟨hdump, herase, _⟩ : c.cmdDump ∉ _ ∧ c.cmdErase ∉ _ ∧ _ := by
    simpa only [Params.Admitted, List.nodup_cons] using hadm
  refine ⟨idByte_injective.ne fun h => hdump ?_, idByte_injective.ne fun h => hdump ?_,
    idByte_injective.ne fun h => herase ?_⟩
  · simp [← h]
  · simp [← h]
  · simp [← h]

/-- Decoding the encoding of a well-formed level-2 operation: the three command ids are distinct bytes. -/
theorem decodeMessage_encode_toInstr (c : Params) (hadm : c.Admitted) (m : Message)
    (hwf : m.toInstr.wellFormed c = true) : decodeMessage c (encode c m.toInstr) = m := by
  obtain ⟨herase, hwriteDump, hwriteErase⟩ := commandIds_distinct hadm
  cases m with
  | dumpPage ps =>
    exact (decodeMessage_messageBytes_cons c _ ps).trans (if_pos rfl)
  | eraseAll ps =>
    exact (decodeMessage_messageBytes_cons c _ ps).trans (by rw [if_neg herase, if_pos rfl])
  | writePage ps =>
    exact (decodeMessage_messageBytes_cons c _ ps).trans (by rw [if_neg hwriteDump, if_neg hwriteErase, if_pos rfl])
  | unknown body =>
    cases body with
    | nil => exact decodeMessage_messageBytes_nil c
    | cons b ps =>
      have hb : isCommandId c b = false := by
        simp only [Message.toInstr, Instr.wellFormed, Bool.and_eq_true] at hwf
        simpa using hwf.2
      obtain ⟨hd, he, hw⟩ := (isCommandId_eq_false_iff c b).mp hb
      exact (decodeMessage_messageBytes_cons c b ps).trans (by rw [if_neg hd, if_neg he, if_neg hw])
  | invalidMsg msg =>
    refine decodeMessage_of_invalid c msg ?_
    simp only [Message.toInstr, Instr.wellFormed, Bool.and_eq_true, Bool.not_eq_true'] at hwf
    rw [hwf.2]
    exact Bool.false_ne_true

/-- What a byte sequence decodes to encodes to it, and is well formed when it has 1 to 64 bytes. -/
theorem encode_decodeMessage (c : Params) (bytes : List Byte) :
    encode c (decodeMessage c bytes).toInstr = bytes ∧
      (1 ≤ bytes.length → bytes.length ≤ 64 → (decodeMessage c bytes).toInstr.wellFormed c = true) := by
  by_cases hvalid : (markersOk bytes && manufOk c bytes) = true
  case neg =>
    rw [decodeMessage_of_invalid c bytes hvalid]
    refine ⟨rfl, fun hpos hcap => ?_⟩
    simp only [Message.toInstr, Instr.wellFormed]
    simp [hpos, hcap, hvalid]
  case pos =>
    obtain ⟨body, rfl⟩ := (valid_iff_exists_messageBytes c bytes).mp hvalid
    rw [Laws.EncodedLength.messageBytes_length]
    cases body with
    | nil =>
      rw [decodeMessage_messageBytes_nil]
      exact ⟨rfl, fun _ _ => rfl⟩
    | cons b ps =>
      rw [decodeMessage_messageBytes_cons]
      split_ifs with hd he hw
      · subst hd
        exact ⟨rfl, fun _ hcap => decide_eq_true hcap⟩
      · subst he
        exact ⟨rfl, fun _ hcap => decide_eq_true hcap⟩
      · subst hw
        exact ⟨rfl, fun _ hcap => decide_eq_true hcap⟩
      · have hb := (isCommandId_eq_false_iff c b).mpr ⟨hd, he, hw⟩
        exact ⟨rfl, fun _ hcap => by simpa [Message.toInstr, Instr.wellFormed, hb] using hcap⟩

/-- Settles O31: the two directions. -/
theorem messagesDecodeToWhatTheyEncode : Obligations.MessagesDecodeToWhatTheyEncode :=
  fun c hadm => ⟨decodeMessage_encode_toInstr c hadm, encode_decodeMessage c⟩

end Sys2Proof

namespace Sys2Proof.Machine

/-! The group step by the shape of its CIN (41_reassembler.md rules R112 to R119). -/

/-- The scan advance of a SysEx group (00_scope.md rule R9, 41_reassembler.md rule R122). -/
def groupAdvance (c : Params) (cin : Nibble) : Nat :=
  if cin = Config.cinEnd2 then c.scanAdvance.afterEnd2
  else if cin = Config.cinEnd1 then c.scanAdvance.afterEnd1
  else 4

/-- Under the decided advances every group takes 4 bytes (90_conflicts.md C1). -/
theorem groupAdvance_of_wholeGroup {c : Params} (hwhole : c.scanAdvance = .wholeGroup) (cin : Nibble) :
    groupAdvance c cin = 4 := by
  simp [groupAdvance, hwhole, ScanAdvance.afterEnd2, ScanAdvance.afterEnd1]

/-- Under either pair of advances the scan moves on, and never past its group. -/
theorem groupAdvance_bounds (c : Params) (cin : Nibble) : 2 ≤ groupAdvance c cin ∧ groupAdvance c cin ≤ 4 := by
  have hend2 : ∀ adv : ScanAdvance, 2 ≤ adv.afterEnd2 ∧ adv.afterEnd2 ≤ 4 := by rintro ⟨⟩ <;> decide
  have hend1 : ∀ adv : ScanAdvance, 2 ≤ adv.afterEnd1 ∧ adv.afterEnd1 ≤ 4 := by rintro ⟨⟩ <;> decide
  unfold groupAdvance
  split_ifs
  · exact hend2 c.scanAdvance
  · exact hend1 c.scanAdvance
  · decide

/-- SXCONT takes 4 bytes under either pair of advances (41_reassembler.md rule R114). -/
theorem groupAdvance_of_cont (c : Params) {cin : Nibble} (hcont : inverseShape cin = some (3, false)) :
    groupAdvance c cin = 4 := by
  unfold inverseShape at hcont
  split_ifs at hcont with hcin
  · rw [hcin]
    rfl
  all_goals simp at hcont

/-- The rows of the inverse mapping (40_sysex_codec.md rule R100): SXCONT, a terminal group, or none. -/
theorem inverseShape_cases (cin : Nibble) :
    inverseShape cin = some (3, false) ∨ (∃ k, 1 ≤ k ∧ k ≤ 3 ∧ inverseShape cin = some (k, true)) ∨
      inverseShape cin = none := by
  unfold inverseShape
  split_ifs
  · exact .inl rfl
  · exact .inr (.inl ⟨3, by decide, by decide, rfl⟩)
  · exact .inr (.inl ⟨2, by decide, by decide, rfl⟩)
  · exact .inr (.inl ⟨1, by decide, by decide, rfl⟩)
  · exact .inr (.inr rfl)

section
variable (c : Platform) {b0 : Byte} (b1 b2 b3 : Byte) (s : State)

theorem groupStep_of_nonsx (hshape : inverseShape (cinOf b0) = none) : groupStep c b0 b1 b2 b3 s = nonsx s := by
  unfold inverseShape at hshape
  unfold groupStep
  split_ifs at hshape ⊢
  rfl

theorem groupStep_of_cont (hshape : inverseShape (cinOf b0) = some (3, false)) :
    groupStep c b0 b1 b2 b3 s = sxcont b1 b2 b3 s := by
  unfold inverseShape at hshape
  unfold groupStep
  split_ifs at hshape ⊢ <;> simp at hshape
  rfl

theorem groupStep_of_terminal {k : Nat} (hshape : inverseShape (cinOf b0) = some (k, true)) :
    groupStep c b0 b1 b2 b3 s =
      terminalGroup c ([b1, b2, b3].take k) (groupAdvance c.toParams (cinOf b0)) s := by
  unfold inverseShape at hshape
  unfold groupStep
  split_ifs at hshape ⊢ with hcont hend3 hend2 hend1 <;> simp at hshape <;> subst hshape
  · simp [sxend3, groupAdvance, hend3]
  · simp [sxend2, groupAdvance, hend2]
  · simp [sxend1, groupAdvance, hend1]

end

/-- `GroupStep` reads nothing of its header but the CIN (41_reassembler.md rule R124). -/
theorem groupStep_congr_cin (c : Platform) {b0 b0' : Byte} (hcin : cinOf b0' = cinOf b0) (b1 b2 b3 : Byte) (s : State) :
    groupStep c b0' b1 b2 b3 s = groupStep c b0 b1 b2 b3 s := by
  simp only [groupStep, hcin]

/-- What one group step can do: end the scan, append, finalize the completed message, or discard an overflowing one. -/
theorem groupStep_cases (c : Platform) (b0 b1 b2 b3 : Byte) (s : State) :
    (inverseShape (cinOf b0) = none ∧ groupStep c b0 b1 b2 b3 s = nonsx s) ∨
    (inverseShape (cinOf b0) = some (3, false) ∧ s.cursor + 3 ≤ 64 ∧
      groupStep c b0 b1 b2 b3 s =
        { s with rxBuf := writeRx s.rxBuf s.cursor [b1, b2, b3], cursor := s.cursor + 3, pos := s.pos + 4 }) ∨
    (∃ vs : List Byte, inverseShape (cinOf b0) = some (vs.length, true) ∧ vs = [b1, b2, b3].take vs.length ∧
      1 ≤ vs.length ∧ s.cursor + vs.length ≤ 64 ∧
      groupStep c b0 b1 b2 b3 s = advance (groupAdvance c.toParams (cinOf b0)) (finalize c
        { s with rxBuf := writeRx s.rxBuf s.cursor vs, cursor := s.cursor + vs.length })) ∨
    (∃ k terminal, inverseShape (cinOf b0) = some (k, terminal) ∧ 64 < s.cursor + k ∧
      groupStep c b0 b1 b2 b3 s =
        advance (groupAdvance c.toParams (cinOf b0)) (abort .overflow (resetCursor s))) := by
  rcases inverseShape_cases (cinOf b0) with hcont | ⟨k, hpos, hle, hterminal⟩ | hnone
  · rw [groupStep_of_cont c b1 b2 b3 s hcont]
    rcases Nat.lt_or_ge 64 (s.cursor + 3) with hover | hfit
    · refine .inr (.inr (.inr ⟨3, false, hcont, hover, ?_⟩))
      rw [groupAdvance_of_cont _ hcont, sxcont_of_overflow b1 b2 b3 s hover]
    · exact .inr (.inl ⟨hcont, hfit, sxcont_of_fits b1 b2 b3 s hfit⟩)
  · rw [groupStep_of_terminal c b1 b2 b3 s hterminal]
    have hlength : ([b1, b2, b3].take k).length = k := List.length_take_of_le hle
    rcases Nat.lt_or_ge 64 (s.cursor + k) with hover | hfit
    · exact .inr (.inr (.inr ⟨k, true, hterminal, hover,
        terminalGroup_of_overflow c _ _ s (by rw [hlength]; exact hover)⟩))
    · refine .inr (.inr (.inl ⟨[b1, b2, b3].take k, ?_, ?_, ?_, ?_, ?_⟩))
      · rw [hlength, hterminal]
      · rw [hlength]
      · rw [hlength]; exact hpos
      · rw [hlength]; exact hfit
      · exact terminalGroup_of_fits c _ _ s (by rw [hlength]; exact hfit)
  · exact .inl ⟨hnone, groupStep_of_nonsx c b1 b2 b3 s hnone⟩

/-- The decoded group's arm of `exec` is the group step, row by row. -/
theorem exec_decodeGroup (b0 b1 b2 b3 : Byte) (s : State) :
    exec (decodeGroup b0 b1 b2 b3) s = .next (groupStep Config.platform b0 b1 b2 b3 s) := by
  have hother {cin : Nibble} (h : ∀ k : Nibble, k.extractLsb' 2 2 = 1 → cin ≠ k) : inverseShape cin = none :=
    inverseShape_eq_none (h _ rfl) (h _ rfl) (h _ rfl) (h _ rfl)
  have hlow : ∀ cin : Nibble, cin.extractLsb' 2 2 = 0 → ∀ k : Nibble, k.extractLsb' 2 2 = 1 → cin ≠ k := by decide
  have htop : ∀ cin : Nibble, cin.extractLsb' 3 1 = 1 → ∀ k : Nibble, k.extractLsb' 2 2 = 1 → cin ≠ k := by decide
  rcases cin_rows_exhaustive (cinOf b0) with h | h | h | h | h | h
  · rw [decodeGroup_of_cinCont h, exec_sxcont, groupStep_of_cont _ _ _ _ _ (by rw [h, inverseShape_cinCont])]
  · rw [decodeGroup_of_cinEnd1 h, exec_sxend1, groupStep_of_terminal _ _ _ _ _ (by rw [h, inverseShape_cinEnd1]), h]
    rfl
  · rw [decodeGroup_of_cinEnd2 h, exec_sxend2, groupStep_of_terminal _ _ _ _ _ (by rw [h, inverseShape_cinEnd2]), h]
    rfl
  · rw [decodeGroup_of_cinEnd3 h, exec_sxend3, groupStep_of_terminal _ _ _ _ _ (by rw [h, inverseShape_cinEnd3]), h]
    rfl
  · rw [decodeGroup_of_cin_high_bits_zero h, exec_nonsxLo, groupStep_of_nonsx _ _ _ _ _ (hother (hlow _ h))]
  · rw [decodeGroup_of_cin_top_bit_one h, exec_nonsxHi, groupStep_of_nonsx _ _ _ _ _ (hother (htop _ h))]

/-- Settles O35: row by row. -/
theorem execAgreesWithTheGroupStep : Obligations.ExecAgreesWithTheGroupStep := exec_decodeGroup

end Sys2Proof.Machine

namespace Sys2Proof.Machine

/-! The step: the group at the scan position, or the end of the scan (41_reassembler.md rule R111). -/

theorem exists_group_of_four_le {l : List Byte} (h : 4 ≤ l.length) :
    ∃ b0 b1 b2 b3 rest, l = b0 :: b1 :: b2 :: b3 :: rest := by
  match l, h with
  | b0 :: b1 :: b2 :: b3 :: rest, _ => exact ⟨b0, b1, b2, b3, rest, rfl⟩

/-- The group at the scan position of a busy state. -/
theorem exists_group_at_pos {s : State} (hbusy : s.pos + 4 ≤ s.pkt.length) :
    ∃ b0 b1 b2 b3 rest, s.pkt.drop s.pos = b0 :: b1 :: b2 :: b3 :: rest :=
  exists_group_of_four_le (by rw [List.length_drop]; omega)

theorem decode_of_short {l : List Byte} (h : l.length < 4) : decode l = .error .shortGroup := by
  match l, h with
  | [], _ => rfl
  | [_], _ => rfl
  | [_, _], _ => rfl
  | [_, _, _], _ => rfl

theorem fetchInstr_of_short {s : State} (hshort : s.pkt.length < s.pos + 4) : fetchInstr s = none := by
  rw [fetchInstr, decode_of_short (by rw [List.length_drop]; omega)]

theorem step_of_fetch {s : State} {i : Instr} (hfetch : fetchInstr s = some i) : step s = exec i s := by
  rw [step, hfetch]

theorem step_of_short {s : State} (hshort : s.pkt.length < s.pos + 4) : step s = .next (endScan s) := by
  rw [step, fetchInstr_of_short hshort]

/-- With a group at the scan position the step is the group step. -/
theorem step_of_group {s : State} {b0 b1 b2 b3 : Byte} {rest : List Byte}
    (hdrop : s.pkt.drop s.pos = b0 :: b1 :: b2 :: b3 :: rest) :
    step s = .next (groupStep Config.platform b0 b1 b2 b3 s) := by
  rw [step_of_fetch (fetchInstr_of_drop s b0 b1 b2 b3 rest hdrop), exec_decodeGroup]

/-- What one step can do, by the bytes left: a group step, or the end of the scan. -/
theorem step_group_or_endScan (s : State) :
    (s.pos + 4 ≤ s.pkt.length ∧ ∃ b0 b1 b2 b3, step s = .next (groupStep Config.platform b0 b1 b2 b3 s)) ∨
    (s.pkt.length < s.pos + 4 ∧ step s = .next (endScan s)) := by
  rcases Nat.lt_or_ge s.pkt.length (s.pos + 4) with hshort | hbusy
  · exact .inr ⟨hshort, step_of_short hshort⟩
  · obtain ⟨b0, b1, b2, b3, rest, hdrop⟩ := exists_group_at_pos hbusy
    exact .inl ⟨hbusy, b0, b1, b2, b3, step_of_group hdrop⟩

theorem endScan_of_none_pending {s : State} (h : s.pending = []) : endScan s = { s with pkt := [], pos := 0 } := by
  simp only [endScan, beginPacket, h]

theorem endScan_of_pending {s : State} {p : List Byte} {ps : List (List Byte)} (h : s.pending = p :: ps) :
    endScan s = { s with pkt := p, pos := 0, pending := ps } := by
  rw [endScan, h]
  rfl

/-- Settles O33: by the bytes left at the scan position. -/
theorem stepRunsTheDecodedGroup : Obligations.StepRunsTheDecodedGroup := by
  intro s
  refine ⟨fun i rest hdecode => ?runs, fun hbusy => ?busy, fun hshort hpending => ?rests,
    fun hshort p ps hpending => ?delivers⟩
  case runs => exact step_of_fetch (by rw [fetchInstr, hdecode])
  case busy =>
    obtain ⟨b0, b1, b2, b3, rest, hdrop⟩ := exists_group_at_pos hbusy
    exact ⟨_, rest, by rw [hdrop]; rfl⟩
  case rests => rw [step_of_short hshort, endScan_of_none_pending hpending]
  case delivers => rw [step_of_short hshort, endScan_of_pending hpending]

/-- Settles O38: a packet is in progress exactly when a whole group is left. -/
theorem deliveryWhileBusyIsRefused : Obligations.DeliveryWhileBusyIsRefused := by
  intro p s
  constructor
  · intro hbusy
    have h : s.busy = true := decide_eq_true hbusy
    rw [deliver, if_pos h]
  · intro hshort
    have h : ¬s.busy = true := by
      rw [State.busy, decide_eq_true_iff]
      exact Nat.not_le.mpr hshort
    rw [deliver, if_neg h]
    rfl

/-! Reset (10_state.md rule R31, 70_reset_and_hazards.md rule R200). -/

/-- Settles O36: the fields of `State.reset`, and a store with no cell. -/
theorem resetLeavesTheBlockIdle : Obligations.ResetLeavesTheBlockIdle :=
  ⟨rfl, State.reset.rxState_eq_idle_iff.mpr rfl, ⟨rfl, rfl⟩, rfl, fun _ => rfl⟩

/-- Settles O40: the fields of `State.reset`, whose store is canonical. -/
theorem resetMeetsTheInvariant : Obligations.ResetMeetsTheInvariant :=
  ⟨Nat.zero_le _, rfl, Nat.le_refl _, reset_store_wf _⟩

/-- Settles O37: `restart` does not write the store, and a transaction cut short is one that failed. -/
theorem restartKeepsTheStore : Obligations.RestartKeepsTheStore := by
  intro c s
  refine ⟨⟨rfl, ⟨rfl, rfl⟩, SameStore.of_eq c rfl, rfl, rfl, rfl⟩, fun page data hpage hwf => ?_⟩
  have hin := (inStore_pageAddress_iff page).mpr hpage
  constructor
  · exact SameStore.of_eq c (storeAfter_read_inStore c s.draws _ .fail s.store hin)
  · intro a ha
    exact read_storeAfter_write_outside c s.draws _ data .fail s.store hin hwf a
      (by rwa [pageAddress_toNat, Nat.mul_comm])

/-! Invariants of a group step and of a step (41_reassembler.md section 5). -/

/-- What a group step makes of the store: at most one transaction (42_command_validator.md rule R154). -/
theorem groupStep_storeStep (c : Platform) (b0 b1 b2 b3 : Byte) (s : State) :
    StoreStep c s (groupStep c b0 b1 b2 b3 s) := by
  rcases groupStep_cases c b0 b1 b2 b3 s with ⟨_, h⟩ | ⟨_, _, h⟩ | ⟨vs, _, _, _, _, h⟩ | ⟨k, _, _, _, h⟩
  · rw [h, nonsx_eq]
    exact .inl rfl
  · rw [h]
    exact .inl rfl
  · rw [h]
    obtain ⟨_, _, _, _, _, hstore⟩ := finalize_block c
      { s with rxBuf := writeRx s.rxBuf s.cursor vs, cursor := s.cursor + vs.length }
    exact hstore
  · rw [h]
    exact .inl rfl

/-- What a group step makes of the packet and of the packets to come: nothing (41_reassembler.md rule R112). -/
theorem groupStep_packets (c : Platform) (b0 b1 b2 b3 : Byte) (s : State) :
    (groupStep c b0 b1 b2 b3 s).pkt = s.pkt ∧ (groupStep c b0 b1 b2 b3 s).pending = s.pending := by
  rcases groupStep_cases c b0 b1 b2 b3 s with ⟨_, h⟩ | ⟨_, _, h⟩ | ⟨vs, _, _, _, _, h⟩ | ⟨k, _, _, _, h⟩
  · rw [h, nonsx_eq]
    exact ⟨rfl, rfl⟩
  · rw [h]
    exact ⟨rfl, rfl⟩
  · rw [h]
    obtain ⟨_, _, hpkt, _, hpending, _⟩ := finalize_block c
      { s with rxBuf := writeRx s.rxBuf s.cursor vs, cursor := s.cursor + vs.length }
    exact ⟨hpkt, hpending⟩
  · rw [h]
    exact ⟨rfl, rfl⟩

/-- Where a group step leaves the scan: at the end of the packet, or moved by the group's advance (41_reassembler.md
rules R118, R122). -/
theorem groupStep_pos (c : Platform) (b0 b1 b2 b3 : Byte) (s : State) :
    (groupStep c b0 b1 b2 b3 s).pos =
      if inverseShape (cinOf b0) = none then s.pkt.length else s.pos + groupAdvance c.toParams (cinOf b0) := by
  rcases groupStep_cases c b0 b1 b2 b3 s with ⟨hshape, h⟩ | ⟨hshape, _, h⟩ | ⟨vs, hshape, _, _, _, h⟩ |
    ⟨k, _, hshape, _, h⟩
  · rw [h, nonsx_eq, if_pos hshape]
  · rw [h, hshape, groupAdvance_of_cont _ hshape]
    rfl
  · obtain ⟨_, _, _, hpos, _, _⟩ := finalize_block c
      { s with rxBuf := writeRx s.rxBuf s.cursor vs, cursor := s.cursor + vs.length }
    rw [h, hshape, advance_pos, hpos]
    rfl
  · rw [h, hshape]
    rfl

/-- What a group step makes of the cursor: 0, or 3 more within the capacity, with nothing recorded (10_state.md rule
R24, 41_reassembler.md rule R127). -/
theorem groupStep_cursor (c : Platform) (b0 b1 b2 b3 : Byte) (s : State) :
    (groupStep c b0 b1 b2 b3 s).cursor = 0 ∨
      ((groupStep c b0 b1 b2 b3 s).cursor = s.cursor + 3 ∧ s.cursor + 3 ≤ 64 ∧
        (groupStep c b0 b1 b2 b3 s).trace = s.trace) := by
  rcases groupStep_cases c b0 b1 b2 b3 s with ⟨_, h⟩ | ⟨_, hfit, h⟩ | ⟨vs, _, _, _, _, h⟩ | ⟨k, _, _, _, h⟩
  · rw [h, nonsx_eq]
    exact .inl rfl
  · rw [h]
    exact .inr ⟨rfl, hfit, rfl⟩
  · rw [h]
    exact .inl rfl
  · rw [h]
    exact .inl rfl

/-- The part of the invariant that is about the block and the store, not about the scan. -/
def State.CoreInv (c : Platform) (s : State) : Prop :=
  s.cursor ≤ 63 ∧ s.cursor % 3 = 0 ∧ Memory.wf c.storeInitial s.store

theorem State.inv_iff (c : Platform) (s : State) : s.Inv c ↔ s.CoreInv c ∧ s.pos ≤ s.pkt.length := by
  unfold State.Inv State.CoreInv
  tauto

/-- A cursor that is a multiple of 3 and moves by 3 within 64 bytes stays at most 63. -/
theorem groupStep_coreInv (c : Platform) (b0 b1 b2 b3 : Byte) (s : State) (hinv : s.CoreInv c) :
    (groupStep c b0 b1 b2 b3 s).CoreInv c := by
  obtain ⟨_, hthree, hwf⟩ := hinv
  have hstore := (groupStep_storeStep c b0 b1 b2 b3 s).wf hwf
  rcases groupStep_cursor c b0 b1 b2 b3 s with hzero | ⟨hmoved, hfit, _⟩
  · exact ⟨by omega, by omega, hstore⟩
  · exact ⟨by omega, by omega, hstore⟩

/-- Settles O41: the group step keeps the cursor's and the store's part, and no advance passes the group; the end of a
scan begins a packet. -/
theorem everyStepKeepsTheInvariant : Obligations.EveryStepKeepsTheInvariant := by
  intro s t hinv hstep
  obtain ⟨hcore, hpos⟩ := (s.inv_iff _).mp hinv
  refine (t.inv_iff _).mpr ?_
  rcases step_group_or_endScan s with ⟨hbusy, b0, b1, b2, b3, hgroup⟩ | ⟨_, hend⟩
  · obtain rfl : _ = t := Host.Outcome.next.inj (hgroup.symm.trans hstep)
    refine ⟨groupStep_coreInv _ b0 b1 b2 b3 s hcore, ?_⟩
    obtain ⟨hpkt, _⟩ := groupStep_packets Config.platform b0 b1 b2 b3 s
    obtain ⟨_, hadv⟩ := groupAdvance_bounds Config.platform.toParams (cinOf b0)
    rw [groupStep_pos, hpkt]
    split_ifs <;> omega
  · obtain rfl : _ = t := Host.Outcome.next.inj (hend.symm.trans hstep)
    rcases endScan_cases s with ⟨_, h⟩ | ⟨p, ps, _, h⟩
    · rw [h]
      exact ⟨hcore, Nat.zero_le _⟩
    · rw [h]
      exact ⟨hcore, Nat.zero_le _⟩

/-- Settles O43: the cursor of a group step; the end of a scan leaves the cursor. -/
theorem aStepMovesTheCursorByThreeOrToZero : Obligations.AStepMovesTheCursorByThreeOrToZero := by
  intro s t hstep
  rcases step_group_or_endScan s with ⟨_, b0, b1, b2, b3, hgroup⟩ | ⟨hshort, hend⟩
  · obtain rfl : _ = t := Host.Outcome.next.inj (hgroup.symm.trans hstep)
    rcases groupStep_cursor Config.platform b0 b1 b2 b3 s with hzero | ⟨hmoved, hfit, htrace⟩
    · exact .inl hzero
    · exact .inr (.inl ⟨hmoved, by omega, htrace⟩)
  · obtain rfl : _ = t := Host.Outcome.next.inj (hend.symm.trans hstep)
    rcases endScan_cases s with ⟨_, h⟩ | ⟨p, ps, _, h⟩
    · rw [h]
      exact .inr (.inr ⟨rfl, hshort⟩)
    · rw [h]
      exact .inr (.inr ⟨rfl, hshort⟩)

end Sys2Proof.Machine

namespace Sys2Proof.Machine

/-! What a level-2 operation records (42_command_validator.md rules R152, R154). -/

/-- At most one transaction and at most one reply between two states, by status and configuration: a named outcome and
nothing launched; a transaction that failed and no reply; a transaction and its reply. -/
def OneCallOneReply (c : Platform) (s t : State) : Prop :=
  (∃ r, r ≠ .storageFail ∧ t.trace = s.trace ++ [.abort r]) ∨
  (∃ q, c.storageStatus s.draws q s.store = .fail ∧ (isRead q = true ∨ c.replyOnStorageFail = .noReply) ∧
    t.trace = s.trace ++ [.storage q .fail, .abort .storageFail]) ∨
  (∃ q reply, (c.storageStatus s.draws q s.store = .ok ∨ (isRead q = false ∧ c.replyOnStorageFail = .ackAnyway)) ∧
    t.trace = s.trace ++ [.storage q (c.storageStatus s.draws q s.store), replyEvent c (s.draws + 1) reply])

theorem OneCallOneReply.of_abort {c : Platform} {s : State} {r : AbortReason} (hr : r ≠ .storageFail) :
    OneCallOneReply c s (abort r s) :=
  .inl ⟨r, hr, rfl⟩

/-- A write or an erase has the reply that rule R152 gives its status. -/
theorem OneCallOneReply.of_acknowledged {c : Platform} {q : StorageRequest} {reply : List Byte} {s t : State}
    (hq : isRead q = false) (hack : Acknowledged c q reply s t) : OneCallOneReply c s t := by
  obtain ⟨_, htrace, _⟩ := hack
  by_cases hreplies : c.storageStatus s.draws q s.store = .ok ∨ c.replyOnStorageFail = .ackAnyway
  · rw [if_pos hreplies] at htrace
    exact .inr (.inr ⟨q, reply, hreplies.imp_right fun h => ⟨hq, h⟩, htrace⟩)
  · rw [if_neg hreplies] at htrace
    obtain ⟨hnotOk, hnotAck⟩ := not_or.mp hreplies
    have hfail : c.storageStatus s.draws q s.store = .fail := by
      cases h : c.storageStatus s.draws q s.store with
      | ok => exact absurd h hnotOk
      | fail => rfl
    have hnoReply : c.replyOnStorageFail = .noReply := by
      cases h : c.replyOnStorageFail with
      | noReply => rfl
      | ackAnyway => exact absurd h hnotAck
    rw [hfail] at htrace
    exact .inr (.inl ⟨q, hfail, .inr hnoReply, htrace⟩)

theorem dumpPage_oneCallOneReply (c : Platform) (ps : List Byte) (s : State) :
    OneCallOneReply c s (dumpPage c ps s) := by
  cases ps with
  | nil => exact .of_abort (by decide)
  | cons page rest =>
    obtain ⟨_, _, htrace, _⟩ := dumpPage_cons_effect c page rest s
    cases hstatus : c.storageStatus s.draws (.read (pageAddress page)) s.store with
    | ok =>
      rw [hstatus] at htrace
      exact .inr (.inr ⟨_, _, .inl hstatus, by rw [hstatus]; exact htrace⟩)
    | fail =>
      rw [hstatus] at htrace
      exact .inr (.inl ⟨_, hstatus, .inl rfl, htrace⟩)

theorem eraseAll_oneCallOneReply (c : Platform) (ps : List Byte) (s : State) :
    OneCallOneReply c s (eraseAll c ps s) := by
  rcases Nat.lt_or_ge ps.length 2 with hshort | hlong
  · rw [eraseAll_of_short c ps s hshort]
    exact .of_abort (by decide)
  · match ps, hlong with
    | m0 :: m1 :: rest, _ =>
      by_cases hmagic : m0 = Config.eraseMagic0 ∧ m1 = Config.eraseMagic1
      · obtain ⟨rfl, rfl⟩ := hmagic
        rw [eraseAll_magic]
        exact .of_acknowledged rfl (storageCall_acknowledged c .eraseAll _ s (eraseReply_ne_nil _))
      · rw [eraseAll_of_other_magic c m0 m1 rest s hmagic]
        exact .of_abort (by decide)

theorem writePage_oneCallOneReply (c : Platform) (ps : List Byte) (s : State) :
    OneCallOneReply c s (writePage c ps s) := by
  rcases Nat.lt_or_ge ps.length 33 with hshort | hlong
  · rw [writePage_of_short c ps s hshort]
    exact .of_abort (by decide)
  · match ps, hlong with
    | page :: nibbles, hlong =>
      exact .of_acknowledged rfl (writePage_cons_acknowledged c page nibbles s (Nat.le_of_succ_le_succ hlong))

theorem invalidMessage_oneCallOneReply (c : Platform) (m : List Byte) (s : State) :
    OneCallOneReply c s (invalidMessage m s) := by
  unfold invalidMessage
  split
  · exact .of_abort (by decide)
  · exact .of_abort (by decide)

theorem runMessage_oneCallOneReply (c : Platform) (m : Message) (s : State) :
    OneCallOneReply c s (runMessage c m s) := by
  cases m with
  | dumpPage ps => exact dumpPage_oneCallOneReply c ps s
  | eraseAll ps => exact eraseAll_oneCallOneReply c ps s
  | writePage ps => exact writePage_oneCallOneReply c ps s
  | unknown body => exact .of_abort (by decide)
  | invalidMsg m => exact invalidMessage_oneCallOneReply c m s

/-- `Dispatch` records the message, and then what its operation records. -/
theorem dispatch_oneCallOneReply (c : Platform) (m : List Byte) (s : State) :
    OneCallOneReply c { s with trace := s.trace ++ [.dispatch m] } (dispatch c m s) := by
  rw [dispatch_eq_runMessage]
  exact runMessage_oneCallOneReply c _ _

/-- Settles O15: a dispatch leaves the block, and records what its operation does. -/
theorem dispatchMakesAtMostOneCallAndOneReply : Obligations.DispatchMakesAtMostOneCallAndOneReply := by
  intro c m s
  refine ⟨(dispatch_steps c m s).1, ?_⟩
  rcases dispatch_oneCallOneReply c m s with ⟨r, hr, htrace⟩ | ⟨q, hfail, hsilent, htrace⟩ |
    ⟨q, reply, hreplied, htrace⟩
  · exact .inl ⟨r, hr, htrace.trans (List.append_assoc _ _ _)⟩
  · exact .inr (.inl ⟨q, hfail, hsilent, htrace.trans (List.append_assoc _ _ _)⟩)
  · exact .inr (.inr ⟨q, reply, hreplied, htrace.trans (List.append_assoc _ _ _)⟩)

end Sys2Proof.Machine

namespace Sys2Proof.Machine

/-! What each class of rows leaves alone. -/

/-- What a group of `k` payload bytes leaves alone: the packets, and `rx_buf` outside its bytes at the cursor. -/
def GroupFrame (k : Nat) (s t : State) : Prop :=
  t.pkt = s.pkt ∧ t.pending = s.pending ∧
    ∀ j, ∀ h : j < 64, j < s.cursor ∨ s.cursor + k ≤ j → t.rxBuf[j] = s.rxBuf[j]

theorem writeRx_getElem_outside (vs : List Byte) (buf : Vector Byte 64) (k j : Nat) (hj : j < 64)
    (hout : j < k ∨ k + vs.length ≤ j) : (writeRx buf k vs)[j] = buf[j] := by
  rw [writeRx_getElem vs buf k j hj]
  split
  · rw [List.getElem?_eq_none (by omega), Option.getD_none]
  · rfl

theorem sxcont_frame (p1 p2 p3 : Byte) (s : State) : GroupFrame 3 s (sxcont p1 p2 p3 s) := by
  rcases sxcont_cases p1 p2 p3 s with ⟨_, h⟩ | ⟨_, h⟩
  · rw [h]
    exact ⟨rfl, rfl, fun j hj hout => writeRx_getElem_outside [p1, p2, p3] s.rxBuf s.cursor j hj hout⟩
  · rw [h]
    exact ⟨rfl, rfl, fun _ _ _ => rfl⟩

theorem terminalGroup_frame (c : Platform) (vs : List Byte) (adv : Nat) (s : State) :
    GroupFrame vs.length s (terminalGroup c vs adv s) := by
  rcases terminalGroup_cases c vs adv s with ⟨_, h⟩ | ⟨_, h⟩
  · obtain ⟨hbuf, _, hpkt, _, hpending, _⟩ := finalize_block c
      { s with rxBuf := writeRx s.rxBuf s.cursor vs, cursor := s.cursor + vs.length }
    rw [h]
    refine ⟨hpkt, hpending, fun j hj hout => ?_⟩
    simp only [advance_rxBuf, hbuf]
    exact writeRx_getElem_outside vs s.rxBuf s.cursor j hj hout
  · rw [h]
    exact ⟨rfl, rfl, fun _ _ _ => rfl⟩

theorem nonsx_frame (s : State) : GroupFrame 0 s (nonsx s) := by
  rw [nonsx_eq]
  exact ⟨rfl, rfl, fun _ _ _ => rfl⟩

/-- A row of level 1 leaves the packets and the rest of `rx_buf`. -/
theorem exec_groupFrame {i : Instr} {s t : State} (hexec : exec i s = .next t) (hgroup : i.isGroup = true) :
    GroupFrame i.payloadLength s t := by
  cases i
  case sxcont cable p1 p2 p3 =>
    obtain rfl := Host.Outcome.next.inj hexec
    exact sxcont_frame p1 p2 p3 s
  case sxend1 cable p1 p2 p3 =>
    obtain rfl := Host.Outcome.next.inj ((exec_sxend1 cable p1 p2 p3 s).symm.trans hexec)
    exact terminalGroup_frame _ [p1] 4 s
  case sxend2 cable p1 p2 p3 =>
    obtain rfl := Host.Outcome.next.inj ((exec_sxend2 cable p1 p2 p3 s).symm.trans hexec)
    exact terminalGroup_frame _ [p1, p2] 4 s
  case sxend3 cable p1 p2 p3 =>
    obtain rfl := Host.Outcome.next.inj ((exec_sxend3 cable p1 p2 p3 s).symm.trans hexec)
    exact terminalGroup_frame _ [p1, p2, p3] 4 s
  case nonsxLo =>
    obtain rfl := Host.Outcome.next.inj hexec
    exact nonsx_frame s
  case nonsxHi =>
    obtain rfl := Host.Outcome.next.inj hexec
    exact nonsx_frame s
  all_goals exact absurd hgroup Bool.false_ne_true

/-- A row of level 2 and an outbound row leave the block (42_command_validator.md rule R140). -/
theorem exec_sameBlock {i : Instr} {s t : State} (hexec : exec i s = .next t) (hgroup : i.isGroup = false) :
    SameBlock s t := by
  cases i
  case dumpPage ps =>
    obtain rfl := Host.Outcome.next.inj hexec
    exact (dumpPage_steps _ ps s).1
  case eraseAll ps =>
    obtain rfl := Host.Outcome.next.inj hexec
    exact (eraseAll_steps _ ps s).1
  case writePage ps =>
    obtain rfl := Host.Outcome.next.inj hexec
    exact (writePage_steps _ ps s).1
  case unknown body =>
    obtain rfl := Host.Outcome.next.inj hexec
    exact ⟨rfl, rfl, rfl, rfl, rfl⟩
  case invalidMsg m =>
    obtain rfl := Host.Outcome.next.inj hexec
    exact (invalidMessage_steps Config.platform m s).1
  case rspDump | rspErase | rspWrite | encode =>
    obtain rfl := Host.Outcome.next.inj hexec
    exact emit_block _ _ s
  all_goals exact absurd hgroup.symm Bool.false_ne_true

theorem sxcont_store_draws (p1 p2 p3 : Byte) (s : State) :
    (sxcont p1 p2 p3 s).store = s.store ∧ (sxcont p1 p2 p3 s).draws = s.draws := by
  rcases sxcont_cases p1 p2 p3 s with ⟨_, h⟩ | ⟨_, h⟩
  · rw [h]
    exact ⟨rfl, rfl⟩
  · rw [h]
    exact ⟨rfl, rfl⟩

theorem nonsx_store_draws (s : State) : (nonsx s).store = s.store ∧ (nonsx s).draws = s.draws := by
  rw [nonsx_eq]
  exact ⟨rfl, rfl⟩

/-- A row that launches no transaction leaves the store, and such a group draws no answer. -/
theorem exec_store_of_not_mayStore {i : Instr} {s t : State} (hexec : exec i s = .next t)
    (hstore : i.mayStore = false) : t.store = s.store ∧ (i.isGroup = true → t.draws = s.draws) := by
  cases i
  case sxcont cable p1 p2 p3 =>
    obtain rfl := Host.Outcome.next.inj hexec
    obtain ⟨hsame, hdraws⟩ := sxcont_store_draws p1 p2 p3 s
    exact ⟨hsame, fun _ => hdraws⟩
  case nonsxLo | nonsxHi =>
    obtain rfl := Host.Outcome.next.inj hexec
    obtain ⟨hsame, hdraws⟩ := nonsx_store_draws s
    exact ⟨hsame, fun _ => hdraws⟩
  case unknown body =>
    obtain rfl := Host.Outcome.next.inj hexec
    exact ⟨rfl, fun _ => rfl⟩
  case invalidMsg m =>
    obtain rfl := Host.Outcome.next.inj hexec
    refine ⟨?_, fun hgroup => absurd hgroup Bool.false_ne_true⟩
    unfold invalidMessage
    split <;> rfl
  case rspDump | rspErase | rspWrite | encode =>
    obtain rfl := Host.Outcome.next.inj hexec
    exact ⟨emit_store _ _ s, fun hgroup => absurd hgroup Bool.false_ne_true⟩
  all_goals exact absurd hstore.symm Bool.false_ne_true

/-- Settles O19: the frame of each class of rows. -/
theorem rowsThatStoreNothingLeaveTheStore : Obligations.RowsThatStoreNothingLeaveTheStore := by
  intro i s t hexec
  refine ⟨exec_sameBlock hexec, exec_groupFrame hexec, fun hstore => ?_, fun hgroup hstore => ?_⟩
  · exact SameStore.of_eq _ (exec_store_of_not_mayStore hexec hstore).1
  · exact (exec_store_of_not_mayStore hexec hstore).2 hgroup

end Sys2Proof.Machine

namespace Sys2Proof.Machine

/-! A level-2 operation neither reads nor writes the block (42_command_validator.md rule R140): it is the same from
every block. -/

/-- The state with its block and scan replaced by those of `b`. -/
def State.withBlock (s b : State) : State :=
  { s with rxBuf := b.rxBuf, cursor := b.cursor, pkt := b.pkt, pos := b.pos, pending := b.pending }

section
variable (c : Platform) (s b : State)

theorem emit_withBlock (msg : List Byte) : emit c msg (s.withBlock b) = (emit c msg s).withBlock b := by
  unfold emit
  split <;> rfl

theorem acknowledge_withBlock (reply : List Byte) (st : Status) :
    acknowledge c reply st (s.withBlock b) = (acknowledge c reply st s).withBlock b := by
  unfold acknowledge
  split
  · exact emit_withBlock c s b reply
  · rfl

theorem dumpPage_withBlock (ps : List Byte) : dumpPage c ps (s.withBlock b) = (dumpPage c ps s).withBlock b := by
  cases ps with
  | nil => rfl
  | cons page rest =>
    have hstatus : (s.withBlock b).store = s.store ∧ (s.withBlock b).draws = s.draws := ⟨rfl, rfl⟩
    rw [dumpPage_cons, dumpPage_cons, hstatus.1, hstatus.2]
    cases c.storageStatus s.draws (.read (pageAddress page)) s.store with
    | ok => exact emit_withBlock c (storageCall c (.read (pageAddress page)) s).2 b _
    | fail => rfl

theorem eraseAll_withBlock (ps : List Byte) : eraseAll c ps (s.withBlock b) = (eraseAll c ps s).withBlock b := by
  unfold eraseAll
  split
  · split
    · exact acknowledge_withBlock c (storageCall c .eraseAll s).2 b _ _
    · rfl
  · rfl

theorem writePage_withBlock (ps : List Byte) : writePage c ps (s.withBlock b) = (writePage c ps s).withBlock b := by
  unfold writePage
  split
  · rfl
  · cases ps with
    | nil => rfl
    | cons page nibbles =>
      exact acknowledge_withBlock c (storageCall c (.write (pageAddress page) (joinPage nibbles)) s).2 b _ _

theorem invalidMessage_withBlock (m : List Byte) :
    invalidMessage m (s.withBlock b) = (invalidMessage m s).withBlock b := by
  unfold invalidMessage
  split <;> rfl

theorem runMessage_withBlock (m : Message) : runMessage c m (s.withBlock b) = (runMessage c m s).withBlock b := by
  cases m with
  | dumpPage ps => exact dumpPage_withBlock c s b ps
  | eraseAll ps => exact eraseAll_withBlock c s b ps
  | writePage ps => exact writePage_withBlock c s b ps
  | unknown body => rfl
  | invalidMsg m => exact invalidMessage_withBlock s b m

theorem dispatch_withBlock (m : List Byte) : dispatch c m (s.withBlock b) = (dispatch c m s).withBlock b := by
  rw [dispatch_eq_runMessage, dispatch_eq_runMessage]
  exact runMessage_withBlock c { s with trace := s.trace ++ [.dispatch m] } b _

/-- `Finalize` on a block that shows the same message is the same dispatch (41_reassembler.md rule R121). -/
theorem finalize_withBlock (hmessage : b.message = s.message) :
    finalize c (s.withBlock b) = (finalize c s).withBlock (resetCursor b) := by
  have hb : (s.withBlock b).message = s.message := hmessage
  rw [finalize, finalize, hb, dispatch_withBlock]
  rfl

end

/-! The scan depends on the packet only by what is left of it. -/

/-- The state with its scan replaced: this packet, this position, these packets to come. -/
def State.withScan (s : State) (pkt : List Byte) (pos : Nat) (pending : List (List Byte)) : State :=
  { s with pkt := pkt, pos := pos, pending := pending }

theorem finalize_withScan (c : Platform) (s : State) (pkt : List Byte) (pos : Nat) (pending : List (List Byte)) :
    finalize c (s.withScan pkt pos pending) = (finalize c s).withScan pkt pos pending := by
  obtain ⟨hbuf, hcursor, _⟩ := finalize_block c s
  have h := finalize_withBlock c s (s.withScan pkt pos pending) rfl
  simp only [State.withBlock, State.withScan, resetCursor] at h ⊢
  rw [h, hbuf, hcursor]

/-- A group step from another scan is the same but for the scan. -/
theorem groupStep_withScan (c : Platform) (b0 b1 b2 b3 : Byte) (s : State) (pkt : List Byte) (pos : Nat)
    (pending : List (List Byte)) :
    groupStep c b0 b1 b2 b3 (s.withScan pkt pos pending) =
      (groupStep c b0 b1 b2 b3 s).withScan pkt
        (if inverseShape (cinOf b0) = none then pkt.length else pos + groupAdvance c.toParams (cinOf b0)) pending := by
  rcases inverseShape_cases (cinOf b0) with hcont | ⟨k, _, _, hterminal⟩ | hnone
  · rw [groupStep_of_cont c b1 b2 b3 _ hcont, groupStep_of_cont c b1 b2 b3 _ hcont, groupAdvance_of_cont _ hcont, hcont]
    rcases Nat.lt_or_ge 64 (s.cursor + 3) with hover | hfit
    · rw [sxcont_of_overflow _ _ _ s hover, sxcont_of_overflow _ _ _ (s.withScan pkt pos pending) hover]
      rfl
    · rw [sxcont_of_fits _ _ _ s hfit, sxcont_of_fits _ _ _ (s.withScan pkt pos pending) hfit]
      rfl
  · rw [groupStep_of_terminal c b1 b2 b3 _ hterminal, groupStep_of_terminal c b1 b2 b3 _ hterminal, hterminal]
    generalize [b1, b2, b3].take k = vs
    rcases Nat.lt_or_ge 64 (s.cursor + vs.length) with hover | hfit
    · rw [terminalGroup_of_overflow _ _ _ s hover, terminalGroup_of_overflow _ _ _ (s.withScan pkt pos pending) hover]
      rfl
    · rw [terminalGroup_of_fits _ _ _ s hfit, terminalGroup_of_fits _ _ _ (s.withScan pkt pos pending) hfit]
      have h := finalize_withScan c
        { s with rxBuf := writeRx s.rxBuf s.cursor vs, cursor := s.cursor + vs.length } pkt pos pending
      exact congrArg (advance _) h
  · rw [groupStep_of_nonsx c b1 b2 b3 _ hnone, groupStep_of_nonsx c b1 b2 b3 _ hnone, hnone, nonsx_eq, nonsx_eq]
    rfl

/-- One turn of the scan loop. -/
theorem scan_group (c : Platform) (fuel : Nat) {s : State} {b0 b1 b2 b3 : Byte} {rest : List Byte}
    (hdrop : s.pkt.drop s.pos = b0 :: b1 :: b2 :: b3 :: rest) :
    scan c (fuel + 1) s = scan c fuel (groupStep c b0 b1 b2 b3 s) := by
  rw [scan, hdrop]

/-- The scan loop ends where fewer than 4 bytes are left (41_reassembler.md rule R111). -/
theorem scan_short (c : Platform) (fuel : Nat) {s : State} (hshort : s.pkt.length < s.pos + 4) :
    scan c fuel s = s := by
  cases fuel with
  | zero => rfl
  | succ fuel =>
    rw [scan]
    split
    · next hdrop =>
      have hlength := congrArg List.length hdrop
      simp only [List.length_drop, List.length_cons] at hlength
      omega
    · rfl

/-- What every group step keeps, the scan keeps. -/
theorem scan_preserves (c : Platform) {P : State → Prop}
    (hgroup : ∀ b0 b1 b2 b3 s, P s → P (groupStep c b0 b1 b2 b3 s)) (fuel : Nat) (s : State) (hs : P s) :
    P (scan c fuel s) := by
  induction fuel generalizing s with
  | zero => exact hs
  | succ fuel ih =>
    rw [scan]
    split
    · exact ih _ (hgroup _ _ _ _ s hs)
    · exact hs

theorem scan_pending (c : Platform) (fuel : Nat) (s : State) : (scan c fuel s).pending = s.pending :=
  scan_preserves c (fun b0 b1 b2 b3 t ht => (groupStep_packets c b0 b1 b2 b3 t).2.trans ht) fuel s rfl

/-- What is left of the packet after a group step: nothing after a non-SysEx group, and otherwise the bytes behind the
advance. -/
theorem groupStep_drop (c : Platform) (b0 b1 b2 b3 : Byte) (s : State) :
    (groupStep c b0 b1 b2 b3 s).pkt.drop (groupStep c b0 b1 b2 b3 s).pos =
      if inverseShape (cinOf b0) = none then []
      else (s.pkt.drop s.pos).drop (groupAdvance c.toParams (cinOf b0)) := by
  rw [groupStep_pos, (groupStep_packets c b0 b1 b2 b3 s).1]
  split
  · exact List.drop_length
  · exact List.drop_drop.symm

/-- A group step leaves less of the packet: at least 2 bytes less, so that the fuel of a whole packet is enough. -/
theorem groupStep_drop_length (c : Platform) {b0 b1 b2 b3 : Byte} {rest : List Byte} {s : State}
    (hdrop : s.pkt.drop s.pos = b0 :: b1 :: b2 :: b3 :: rest) :
    ((groupStep c b0 b1 b2 b3 s).pkt.drop (groupStep c b0 b1 b2 b3 s).pos).length + 2 ≤
      (s.pkt.drop s.pos).length := by
  obtain ⟨hadv, _⟩ := groupAdvance_bounds c.toParams (cinOf b0)
  have hfour : 4 ≤ (s.pkt.drop s.pos).length := by
    rw [hdrop]
    simp
  rw [groupStep_drop]
  split
  · rw [List.length_nil]
    omega
  · rw [List.length_drop (l := s.pkt.drop s.pos)]
    omega

/-- Two scans with the same bytes left, from states that differ only in the scan, with fuel enough for each, do the
same. -/
theorem scan_withScan (c : Platform) (fuel : Nat) : ∀ (fuel' : Nat) (s : State) (pkt : List Byte) (pos : Nat)
    (pending : List (List Byte)), pkt.drop pos = s.pkt.drop s.pos → (s.pkt.drop s.pos).length ≤ fuel →
    (s.pkt.drop s.pos).length ≤ fuel' → ∃ pos' : Nat,
      scan c fuel' (s.withScan pkt pos pending) = (scan c fuel s).withScan pkt pos' pending := by
  induction fuel with
  | zero =>
    intro fuel' s pkt pos pending hdrop hfuel _
    have hnil : (s.withScan pkt pos pending).pkt.length < (s.withScan pkt pos pending).pos + 4 := by
      have hlength := congrArg List.length hdrop
      rw [List.length_drop] at hlength
      show pkt.length < pos + 4
      omega
    exact ⟨pos, scan_short c fuel' hnil⟩
  | succ fuel ih =>
    intro fuel' s pkt pos pending hdrop hfuel hfuel'
    rcases Nat.lt_or_ge s.pkt.length (s.pos + 4) with hshort | hbusy
    · have hshort' : (s.withScan pkt pos pending).pkt.length < (s.withScan pkt pos pending).pos + 4 := by
        have hlength := congrArg List.length hdrop
        rw [List.length_drop, List.length_drop] at hlength
        show pkt.length < pos + 4
        omega
      rw [scan_short c _ hshort, scan_short c _ hshort']
      exact ⟨pos, rfl⟩
    · obtain ⟨b0, b1, b2, b3, rest, hgroup⟩ := exists_group_at_pos hbusy
      have hless := groupStep_drop_length c hgroup
      obtain ⟨fuel', rfl⟩ : ∃ n, fuel' = n + 1 := ⟨fuel' - 1, by rw [hgroup, List.length_cons] at hfuel'; omega⟩
      rw [scan_group c fuel hgroup,
        scan_group c fuel' (s := s.withScan pkt pos pending) (hdrop.trans hgroup), groupStep_withScan]
      refine ih fuel' _ pkt _ pending ?_ (by omega) (by omega)
      rw [groupStep_drop]
      split
      · exact List.drop_length
      · rw [← List.drop_drop, hdrop]

/-- The end of a scan, and the packet that a scan with these bytes left amounts to. -/
theorem beginPacket_scan_eq_rxPacket (c : Platform) (fuel : Nat) (s : State)
    (hfuel : (s.pkt.drop s.pos).length ≤ fuel) :
    beginPacket [] (scan c fuel s) = rxPacket c (s.pkt.drop s.pos) s := by
  have hpending : (scan c fuel s).pending = s.pending := scan_pending c fuel s
  obtain ⟨pos', h⟩ := scan_withScan c fuel (s.pkt.drop s.pos).length s (s.pkt.drop s.pos) 0 s.pending rfl hfuel
    (Nat.le_refl _)
  have hbegin : beginPacket (s.pkt.drop s.pos) s = s.withScan (s.pkt.drop s.pos) 0 s.pending := rfl
  rw [rxPacket, hbegin, h, ← hpending]
  rfl

end Sys2Proof.Machine

namespace Sys2Proof.Machine

/-! The whole-packet step by recursion on the packet (41_reassembler.md rules R111, R118, R122). -/

/-- A packet with a group in front is the group step and then the packet of what the scan has left. -/
theorem rxPacket_group (c : Platform) (b0 b1 b2 b3 : Byte) (rest : List Byte) (s : State) :
    rxPacket c (b0 :: b1 :: b2 :: b3 :: rest) s =
      rxPacket c (if inverseShape (cinOf b0) = none then []
          else (b0 :: b1 :: b2 :: b3 :: rest).drop (groupAdvance c.toParams (cinOf b0)))
        (groupStep c b0 b1 b2 b3 s) := by
  let pkt := b0 :: b1 :: b2 :: b3 :: rest
  have hdrop : (beginPacket pkt s).pkt.drop (beginPacket pkt s).pos = b0 :: b1 :: b2 :: b3 :: rest := rfl
  have hless := groupStep_drop_length c hdrop
  have hremaining := groupStep_drop c b0 b1 b2 b3 (beginPacket pkt s)
  have hstep : groupStep c b0 b1 b2 b3 (beginPacket pkt s) = (groupStep c b0 b1 b2 b3 s).withScan pkt _ s.pending :=
    groupStep_withScan c b0 b1 b2 b3 s pkt 0 s.pending
  have hpending : (groupStep c b0 b1 b2 b3 s).pending = s.pending := (groupStep_packets c b0 b1 b2 b3 s).2
  calc rxPacket c pkt s
      = beginPacket [] (scan c (rest.length + 3) (groupStep c b0 b1 b2 b3 (beginPacket pkt s))) :=
        congrArg (beginPacket []) (scan_group c (rest.length + 3) hdrop)
    _ = rxPacket c _ (groupStep c b0 b1 b2 b3 (beginPacket pkt s)) :=
        beginPacket_scan_eq_rxPacket c _ _ (by simp only [hdrop, List.length_cons] at hless; omega)
    _ = _ := by
        rw [hremaining, hstep, ← hpending]
        rfl

/-- Fewer than 4 bytes hold no group (41_reassembler.md rule R126). -/
theorem rxPacket_short (c : Platform) {pkt : List Byte} (hshort : pkt.length < 4) (s : State) :
    rxPacket c pkt s = beginPacket [] s := by
  rw [rxPacket, scan_short c _ (by rw [beginPacket_pkt, beginPacket_pos]; omega)]
  rfl

@[simp] theorem rxPacket_nil (c : Platform) (s : State) : rxPacket c [] s = beginPacket [] s := rfl

/-- A non-SysEx group ends the packet (41_reassembler.md rule R118). -/
theorem rxPacket_nonsx (c : Platform) {b0 : Byte} (hshape : inverseShape (cinOf b0) = none) (b1 b2 b3 : Byte)
    (rest : List Byte) (s : State) :
    rxPacket c (b0 :: b1 :: b2 :: b3 :: rest) s = beginPacket [] (nonsx s) := by
  rw [rxPacket_group, if_pos hshape, groupStep_of_nonsx c b1 b2 b3 s hshape, rxPacket_nil]

/-- A SysEx group, under either pair of advances. -/
theorem rxPacket_sysex (c : Platform) {b0 : Byte} (hshape : inverseShape (cinOf b0) ≠ none) (b1 b2 b3 : Byte)
    (rest : List Byte) (s : State) :
    rxPacket c (b0 :: b1 :: b2 :: b3 :: rest) s =
      rxPacket c ((b0 :: b1 :: b2 :: b3 :: rest).drop (groupAdvance c.toParams (cinOf b0)))
        (groupStep c b0 b1 b2 b3 s) := by
  rw [rxPacket_group, if_neg hshape]

/-- A SysEx group under the decided advances. -/
theorem rxPacket_sysex_wholeGroup (c : Platform) (hwhole : c.scanAdvance = .wholeGroup) {b0 : Byte}
    (hshape : inverseShape (cinOf b0) ≠ none) (b1 b2 b3 : Byte) (rest : List Byte) (s : State) :
    rxPacket c (b0 :: b1 :: b2 :: b3 :: rest) s = rxPacket c rest (groupStep c b0 b1 b2 b3 s) := by
  rw [rxPacket_sysex c hshape, groupAdvance_of_wholeGroup hwhole]
  rfl

/-- SXCONT, under either pair of advances. -/
theorem rxPacket_cont (c : Platform) {b0 : Byte} (hshape : inverseShape (cinOf b0) = some (3, false)) (b1 b2 b3 : Byte)
    (rest : List Byte) (s : State) :
    rxPacket c (b0 :: b1 :: b2 :: b3 :: rest) s = rxPacket c rest (sxcont b1 b2 b3 s) := by
  rw [rxPacket_sysex c (by rw [hshape]; exact Option.some_ne_none _), groupAdvance_of_cont _ hshape,
    groupStep_of_cont c b1 b2 b3 s hshape]
  rfl

/-- What every group step and the beginning of a packet keep, packets keep. -/
theorem rxPackets_preserves (c : Platform) {P : State → Prop}
    (hgroup : ∀ b0 b1 b2 b3 s, P s → P (groupStep c b0 b1 b2 b3 s)) (hbegin : ∀ p s, P s → P (beginPacket p s))
    (packets : List (List Byte)) (s : State) (hs : P s) : P (rxPackets c packets s) := by
  induction packets generalizing s with
  | nil => exact hs
  | cons p ps ih => exact ih _ (hbegin [] _ (scan_preserves c hgroup _ _ (hbegin p s hs)))

theorem rxPacket_preserves (c : Platform) {P : State → Prop}
    (hgroup : ∀ b0 b1 b2 b3 s, P s → P (groupStep c b0 b1 b2 b3 s)) (hbegin : ∀ p s, P s → P (beginPacket p s))
    (pkt : List Byte) (s : State) (hs : P s) : P (rxPacket c pkt s) :=
  rxPackets_preserves c hgroup hbegin [pkt] s hs

/-- Settles O42: group steps and deliveries keep the part about the block and the store; at rest the scan is at 0. -/
theorem everyPacketKeepsTheInvariant : Obligations.EveryPacketKeepsTheInvariant := by
  intro c pkt s hinv
  obtain ⟨hcore, _⟩ := (s.inv_iff c).mp hinv
  have hcore' : (rxPacket c pkt s).CoreInv c :=
    rxPacket_preserves c (groupStep_coreInv c) (fun _ _ h => h) pkt s hcore
  exact ⟨(State.inv_iff c _).mpr ⟨hcore', Nat.zero_le _⟩, rfl, rfl⟩

/-! Packets under the decided advances: group after group, up to the first that is not SysEx. -/

/-- Settles O49: a non-SysEx group in front ends the packet. -/
theorem aNonSysexGroupResynchronises : Obligations.ANonSysexGroupResynchronises := by
  intro c b0 b1 b2 b3 rest s hshape
  rw [rxPacket_nonsx c hshape, nonsx_eq]
  rfl

theorem onlySysexGroups_cons (b0 b1 b2 b3 : Byte) (rest : List Byte) :
    OnlySysexGroups (b0 :: b1 :: b2 :: b3 :: rest) ↔ inverseShape (cinOf b0) ≠ none ∧ OnlySysexGroups rest := by
  unfold OnlySysexGroups
  constructor
  · intro h
    refine ⟨?_, fun k hk => ?_⟩
    · simpa [Option.isSome_iff_ne_none] using h 0 (by simp)
    · simpa [Nat.mul_succ] using h (k + 1) (by simp only [List.length_cons]; omega)
  · rintro ⟨hhead, hrest⟩ k hk
    cases k with
    | zero => simpa [Option.isSome_iff_ne_none] using hhead
    | succ k => simpa [Nat.mul_succ] using hrest k (by simp only [List.length_cons] at hk; omega)

/-- Induction over the whole groups of a byte sequence, with fewer than 4 bytes behind them. -/
theorem groups_induction {P : List Byte → Prop} (short : ∀ l : List Byte, l.length < 4 → P l)
    (group : ∀ b0 b1 b2 b3 rest, P rest → P (b0 :: b1 :: b2 :: b3 :: rest)) : ∀ l, P l
  | b0 :: b1 :: b2 :: b3 :: rest => group b0 b1 b2 b3 rest (groups_induction short group rest)
  | [] => short _ (by simp)
  | [_] => short _ (by simp)
  | [_, _] => short _ (by simp)
  | [_, _, _] => short _ (by simp)

/-- A whole number of groups and fewer than 4 bytes is no byte. -/
theorem eq_nil_of_short_of_mod {l : List Byte} (hshort : l.length < 4) (hmod : l.length % 4 = 0) : l = [] :=
  List.eq_nil_of_length_eq_zero (by omega)

/-- Settles O47: by the groups in front; each is the same group step in both. -/
theorem packetBoundariesDoNotMatter : Obligations.PacketBoundariesDoNotMatter := by
  intro c p q s hwhole hmod honly
  induction p using groups_induction generalizing s with
  | short p hshort =>
    obtain rfl := eq_nil_of_short_of_mod hshort hmod
    rfl
  | group b0 b1 b2 b3 rest ih =>
    obtain ⟨hshape, hrest⟩ := (onlySysexGroups_cons b0 b1 b2 b3 rest).mp honly
    have hmod' : rest.length % 4 = 0 := by
      simp only [List.length_cons] at hmod
      omega
    rw [rxPacket_sysex_wholeGroup c hwhole hshape b1 b2 b3 rest s, ← ih _ hmod' hrest]
    exact rxPacket_sysex_wholeGroup c hwhole hshape b1 b2 b3 (rest ++ q) s

/-- Settles O48: by the groups in front, up to the one that ends the packet. -/
theorem groupsBehindANonSysexGroupAreSkipped : Obligations.GroupsBehindANonSysexGroupAreSkipped := by
  intro c p q s hwhole hmod honly
  induction p using groups_induction generalizing s with
  | short p hshort =>
    obtain rfl := eq_nil_of_short_of_mod hshort hmod
    exact absurd (fun k hk => absurd hk (Nat.not_lt_zero _)) honly
  | group b0 b1 b2 b3 rest ih =>
    by_cases hshape : inverseShape (cinOf b0) = none
    · rw [rxPacket_nonsx c hshape b1 b2 b3 rest s]
      exact rxPacket_nonsx c hshape b1 b2 b3 (rest ++ q) s
    · have hrest : ¬OnlySysexGroups rest := fun h => honly ((onlySysexGroups_cons b0 b1 b2 b3 rest).mpr ⟨hshape, h⟩)
      have hmod' : rest.length % 4 = 0 := by
        simp only [List.length_cons] at hmod
        omega
      rw [rxPacket_sysex_wholeGroup c hwhole hshape b1 b2 b3 rest s, ← ih _ hmod' hrest]
      exact rxPacket_sysex_wholeGroup c hwhole hshape b1 b2 b3 (rest ++ q) s

/-- Settles O50: the bytes behind are a packet of their own that holds no group, or they are skipped. -/
theorem trailingBytesAreNeverRead : Obligations.TrailingBytesAreNeverRead := by
  intro c p extra s hwhole hmod hextra
  by_cases honly : OnlySysexGroups p
  · rw [packetBoundariesDoNotMatter c p extra s hwhole hmod honly, rxPacket_short c hextra]
    rfl
  · exact groupsBehindANonSysexGroupAreSkipped c p extra s hwhole hmod honly

/-- Two packets of the same length that agree in the CINs of their groups and in every payload and padding byte. -/
def SameButCables (p p' : List Byte) : Prop :=
  ∀ k < p.length, if k % 4 = 0 then cinOf (p'.getD k 0) = cinOf (p.getD k 0) else p'.getD k 0 = p.getD k 0

theorem SameButCables.group {b0 b1 b2 b3 b0' b1' b2' b3' : Byte} {rest rest' : List Byte}
    (h : SameButCables (b0 :: b1 :: b2 :: b3 :: rest) (b0' :: b1' :: b2' :: b3' :: rest')) :
    cinOf b0' = cinOf b0 ∧ b1' = b1 ∧ b2' = b2 ∧ b3' = b3 ∧ SameButCables rest rest' := by
  refine ⟨?_, ?_, ?_, ?_, fun k hk => ?_⟩
  · simpa using h 0 (by simp)
  · simpa using h 1 (by simp)
  · simpa using h 2 (by simp)
  · simpa using h 3 (by simp)
  · simpa using h (k + 4) (by simp only [List.length_cons]; omega)

/-- Settles O51: by the groups in front; a group step reads nothing of its header but the CIN. -/
theorem cablesFeedOneBuffer : Obligations.CablesFeedOneBuffer := by
  intro c p p' s hwhole hlength hsame
  induction p using groups_induction generalizing p' s with
  | short p hshort => rw [rxPacket_short c hshort, rxPacket_short c (by omega)]
  | group b0 b1 b2 b3 rest ih =>
    obtain ⟨b0', b1', b2', b3', rest', rfl⟩ := exists_group_of_four_le (l := p') (by simp [hlength])
    obtain ⟨hcin, rfl, rfl, rfl, hrest⟩ := SameButCables.group hsame
    by_cases hshape : inverseShape (cinOf b0) = none
    · rw [rxPacket_nonsx c hshape, rxPacket_nonsx c (hcin ▸ hshape)]
    · rw [rxPacket_sysex_wholeGroup c hwhole hshape, rxPacket_sysex_wholeGroup c hwhole (hcin ▸ hshape),
        groupStep_congr_cin c hcin]
      exact ih rest' _ (by simpa using hlength) hrest

/-! The document's literal advances (41_reassembler.md rule R128). -/

/-- A padding byte read as a header is a non-SysEx CIN, and from an idle block that changes nothing. -/
theorem rxPacket_txPad (c : Platform) (rest : List Byte) (s : State) (hidle : s.cursor = 0) :
    rxPacket c (Config.txPad :: rest) s = beginPacket [] s := by
  rcases Nat.lt_or_ge (Config.txPad :: rest).length 4 with hshort | hlong
  · exact rxPacket_short c hshort s
  · match rest, hlong with
    | b1 :: b2 :: b3 :: rest, _ =>
      rw [rxPacket_nonsx c (by decide), nonsx_eq, if_pos hidle, ← hidle]
      rfl

/-- A terminal group leaves the block idle, whether it finalizes or overflows (41_reassembler.md rules R119, R121). -/
theorem groupStep_terminal_cursor (c : Platform) {b0 : Byte} {k : Nat}
    (hshape : inverseShape (cinOf b0) = some (k, true)) (b1 b2 b3 : Byte) (s : State) :
    (groupStep c b0 b1 b2 b3 s).cursor = 0 := by
  rw [groupStep_of_terminal c b1 b2 b3 s hshape]
  rcases terminalGroup_cases c ([b1, b2, b3].take k) (groupAdvance c.toParams (cinOf b0)) s with ⟨_, h⟩ | ⟨_, h⟩
  · rw [h]
    rfl
  · rw [h]
    rfl

/-- A terminal group that the scan leaves at a padding byte hides whatever follows. -/
theorem rxPacket_terminal_hides (c : Platform) {b0 : Byte} {k : Nat} (hshape : inverseShape (cinOf b0) = some (k, true))
    (b1 b2 b3 : Byte) (rest pads : List Byte) (s : State)
    (hpad : (b0 :: b1 :: b2 :: b3 :: rest).drop (groupAdvance c.toParams (cinOf b0)) = Config.txPad :: pads) :
    rxPacket c (b0 :: b1 :: b2 :: b3 :: rest) s = beginPacket [] (groupStep c b0 b1 b2 b3 s) := by
  rw [rxPacket_sysex c (by rw [hshape]; exact Option.some_ne_none _), hpad,
    rxPacket_txPad c _ _ (groupStep_terminal_cursor c hshape b1 b2 b3 s)]

theorem groupAdvance_cinEnd2_literal {c : Params} (hliteral : c.scanAdvance = .documentLiteral) :
    groupAdvance c Config.cinEnd2 = 3 := by
  rw [groupAdvance, if_pos rfl, hliteral]
  rfl

theorem groupAdvance_cinEnd1_literal {c : Params} (hliteral : c.scanAdvance = .documentLiteral) :
    groupAdvance c Config.cinEnd1 = 2 := by
  rw [groupAdvance, if_neg (by decide), if_pos rfl, hliteral]
  rfl

/-- An encoded message with a short terminal group hides whatever follows it, from any state. -/
theorem rxPacket_encodeGroups_append_literal (c : Platform) (cable : Nibble)
    (hliteral : c.scanAdvance = .documentLiteral) (msg rest : List Byte) (s : State) (hmod : msg.length % 3 ≠ 0) :
    rxPacket c (encodeGroups cable msg ++ rest) s = rxPacket c (encodeGroups cable msg) s := by
  fun_induction encodeGroups cable msg generalizing s with
  | case1 => exact absurd rfl hmod
  | case2 a =>
    have hshape : inverseShape (cinOf (headerByte cable Config.cinEnd1)) = some (1, true) := by
      rw [cinOf_headerByte, inverseShape_cinEnd1]
    have hadv : groupAdvance c.toParams (cinOf (headerByte cable Config.cinEnd1)) = 2 := by
      rw [cinOf_headerByte, groupAdvance_cinEnd1_literal hliteral]
    rw [rxPacket_terminal_hides c hshape _ _ _ [] [Config.txPad] s (by rw [hadv]; rfl)]
    exact rxPacket_terminal_hides c hshape _ _ _ rest (Config.txPad :: rest) s (by rw [hadv]; rfl)
  | case3 a b =>
    have hshape : inverseShape (cinOf (headerByte cable Config.cinEnd2)) = some (2, true) := by
      rw [cinOf_headerByte, inverseShape_cinEnd2]
    have hadv : groupAdvance c.toParams (cinOf (headerByte cable Config.cinEnd2)) = 3 := by
      rw [cinOf_headerByte, groupAdvance_cinEnd2_literal hliteral]
    rw [rxPacket_terminal_hides c hshape _ _ _ [] [] s (by rw [hadv]; rfl)]
    exact rxPacket_terminal_hides c hshape _ _ _ rest rest s (by rw [hadv]; rfl)
  | case4 a b d => exact (hmod (by simp)).elim
  | case5 a b d e tail ih =>
    have hshape : inverseShape (cinOf (headerByte cable Config.cinCont)) = some (3, false) := by
      rw [cinOf_headerByte, inverseShape_cinCont]
    have hmod' : (e :: tail).length % 3 ≠ 0 := by
      simp only [List.length_cons] at hmod ⊢
      omega
    rw [rxPacket_cont c hshape, ← ih _ hmod']
    exact rxPacket_cont c hshape a b d (encodeGroups cable (e :: tail) ++ rest) s

/-- Settles O52: a length that is no multiple of 3 has a short terminal group. -/
theorem literalAdvancesLoseTheGroupsBehind : Obligations.LiteralAdvancesLoseTheGroupsBehind :=
  fun c cable msg rest s hliteral _ _ hmod _ => rxPacket_encodeGroups_append_literal c cable hliteral msg rest s hmod

end Sys2Proof.Machine

namespace Sys2Proof.Machine

/-! What packets record (41_reassembler.md section 5, 60_exceptions.md section 2). -/

/-- The events between two states satisfy this. -/
def Records (P : List Event → Prop) (s t : State) : Prop := ∃ es, t.trace = s.trace ++ es ∧ P es

/-- What holds of no event, of the events of every group step and of events one after another holds of those of
packets. -/
theorem rxPackets_records (c : Platform) {P : List Event → Prop} (hnil : P [])
    (happend : ∀ es fs, P es → P fs → P (es ++ fs))
    (hgroup : ∀ b0 b1 b2 b3 s, Records P s (groupStep c b0 b1 b2 b3 s)) (packets : List (List Byte)) (s : State) :
    Records P s (rxPackets c packets s) := by
  refine rxPackets_preserves c (P := Records P s) ?group (fun _ _ h => h) packets s ⟨[], by simp, hnil⟩
  case group =>
    rintro b0 b1 b2 b3 t ⟨es, htrace, hes⟩
    obtain ⟨fs, htrace', hfs⟩ := hgroup b0 b1 b2 b3 t
    exact ⟨es ++ fs, by rw [htrace', htrace, List.append_assoc], happend es fs hes hfs⟩

/-- What one group step records: nothing, a named outcome, or the dispatch of the completed message. -/
theorem groupStep_trace_cases (c : Platform) (b0 b1 b2 b3 : Byte) (s : State) :
    (groupStep c b0 b1 b2 b3 s).trace = s.trace ∨
    (∃ r, (groupStep c b0 b1 b2 b3 s).trace = s.trace ++ [.abort r]) ∨
    (∃ k, inverseShape (cinOf b0) = some (k, true) ∧ 1 ≤ k ∧ s.cursor + k ≤ 64 ∧
      (s.message ++ [b1, b2, b3].take k).length = s.cursor + k ∧
      OneCallOneReply c { s with trace := s.trace ++ [.dispatch (s.message ++ [b1, b2, b3].take k)] }
        (groupStep c b0 b1 b2 b3 s)) := by
  rcases groupStep_cases c b0 b1 b2 b3 s with ⟨_, h⟩ | ⟨_, _, h⟩ | ⟨vs, hshape, hvs, hpos, hfit, h⟩ | ⟨k, _, _, _, h⟩
  · rw [h, nonsx_eq]
    split
    · exact .inl rfl
    · exact .inr (.inl ⟨_, rfl⟩)
  · rw [h]
    exact .inl rfl
  · refine .inr (.inr ⟨vs.length, hshape, hpos, hfit, ?_, ?_⟩)
    · rw [← hvs, List.length_append, State.message, List.length_take, Vector.length_toList]
      omega
    · rw [← hvs, h, finalize, message_append s vs hfit]
      exact dispatch_oneCallOneReply c (s.message ++ vs)
        { s with rxBuf := writeRx s.rxBuf s.cursor vs, cursor := s.cursor + vs.length }
  · rw [h]
    exact .inr (.inl ⟨_, rfl⟩)

/-- A dispatch records one dispatch, its own. -/
theorem OneCallOneReply.dispatch_events {c : Platform} {m : List Byte} {s t : State}
    (h : OneCallOneReply c { s with trace := s.trace ++ [.dispatch m] } t) :
    ∃ es, t.trace = s.trace ++ .dispatch m :: es ∧ dispatchesIn es = [] := by
  rcases h with ⟨r, _, htrace⟩ | ⟨q, _, _, htrace⟩ | ⟨q, reply, _, htrace⟩
  · exact ⟨_, htrace.trans (List.append_assoc _ _ _), rfl⟩
  · exact ⟨_, htrace.trans (List.append_assoc _ _ _), rfl⟩
  · exact ⟨_, htrace.trans (List.append_assoc _ _ _), rfl⟩

/-- The messages that one group step dispatches: that of a terminal group that fits (41_reassembler.md rule R121). -/
theorem groupStep_dispatches (c : Platform) (b0 b1 b2 b3 : Byte) (s : State) :
    Records (fun es => ∀ m ∈ dispatchesIn es, ∃ k, inverseShape (cinOf b0) = some (k, true) ∧ 1 ≤ k ∧
        s.cursor + k ≤ 64 ∧ m.length = s.cursor + k ∧ m = s.message ++ [b1, b2, b3].take k)
      s (groupStep c b0 b1 b2 b3 s) := by
  rcases groupStep_trace_cases c b0 b1 b2 b3 s with htrace | ⟨r, htrace⟩ | ⟨k, hshape, hpos, hfit, hlength, hdispatch⟩
  · exact ⟨[], by rw [htrace, List.append_nil], fun m hm => absurd hm List.not_mem_nil⟩
  · exact ⟨_, htrace, fun m hm => absurd hm List.not_mem_nil⟩
  · obtain ⟨es, htrace, hes⟩ := hdispatch.dispatch_events
    refine ⟨_, htrace, fun m hm => ?_⟩
    obtain rfl : m = s.message ++ [b1, b2, b3].take k := by
      have honly : dispatchesIn (.dispatch (s.message ++ [b1, b2, b3].take k) :: es) =
          (s.message ++ [b1, b2, b3].take k) :: dispatchesIn es := rfl
      rw [honly, hes] at hm
      exact List.mem_singleton.mp hm
    exact ⟨k, hshape, hpos, hfit, hlength, rfl⟩

@[simp] theorem dispatchesIn_append (es fs : List Event) :
    dispatchesIn (es ++ fs) = dispatchesIn es ++ dispatchesIn fs := List.filterMap_append

@[simp] theorem storageIn_append (es fs : List Event) : storageIn (es ++ fs) = storageIn es ++ storageIn fs :=
  List.filterMap_append

@[simp] theorem txIn_append (es fs : List Event) : txIn (es ++ fs) = txIn es ++ txIn fs := List.filterMap_append

/-- Settles O44: the messages of a group step, and their lengths along a packet. -/
theorem everyDispatchedMessageFits : Obligations.EveryDispatchedMessageFits := by
  intro c s
  constructor
  · intro b0 b1 b2 b3
    obtain ⟨es, htrace, hes⟩ := groupStep_dispatches c b0 b1 b2 b3 s
    refine ⟨es, htrace, fun m hm => ?_⟩
    obtain ⟨k, hshape, _, hfit, hlength, hm⟩ := hes m hm
    exact ⟨k, hshape, hfit, hlength, hm⟩
  · intro pkt
    refine rxPackets_records c (P := fun es => ∀ m ∈ dispatchesIn es, 1 ≤ m.length ∧ m.length ≤ 64) ?nil ?append
      ?group [pkt] s
    case nil => exact fun m hm => absurd hm List.not_mem_nil
    case append =>
      intro es fs hes hfs m hm
      rw [dispatchesIn_append] at hm
      exact (List.mem_append.mp hm).elim (hes m) (hfs m)
    case group =>
      intro b0 b1 b2 b3 u
      obtain ⟨es, htrace, hes⟩ := groupStep_dispatches c b0 b1 b2 b3 u
      refine ⟨es, htrace, fun m hm => ?_⟩
      obtain ⟨k, _, hpos, hfit, hlength, _⟩ := hes m hm
      omega

/-- Every outbound write comes right after a transaction that answered `ok`. -/
def RepliesFollowSuccess (es : List Event) : Prop :=
  ∀ k b x, es[k]? = some (.txWrite b x) → ∃ j q, k = j + 1 ∧ es[j]? = some (.storage q .ok)

theorem RepliesFollowSuccess.append {es fs : List Event} (hes : RepliesFollowSuccess es)
    (hfs : RepliesFollowSuccess fs) : RepliesFollowSuccess (es ++ fs) := by
  intro k b x hk
  rcases Nat.lt_or_ge k es.length with hlt | hge
  · rw [List.getElem?_append_left hlt] at hk
    obtain ⟨j, q, rfl, hj⟩ := hes k b x hk
    exact ⟨j, q, rfl, by rw [List.getElem?_append_left (by omega), hj]⟩
  · rw [List.getElem?_append_right hge] at hk
    obtain ⟨j, q, hkj, hj⟩ := hfs _ b x hk
    refine ⟨es.length + j, q, by omega, ?_⟩
    rw [List.getElem?_append_right (by omega), Nat.add_sub_cancel_left, hj]

/-- Events without an outbound write. -/
theorem RepliesFollowSuccess.of_no_write {es : List Event} (h : ∀ b x, .txWrite b x ∉ es) : RepliesFollowSuccess es :=
  fun _ b x hk => absurd (List.mem_of_getElem? hk) (h b x)

/-- Where `REPLY_ON_STORAGE_FAIL` is `NONE`, the replies of a group step follow a success, and where no transaction
answers `ok` it sends none (42_command_validator.md rule R152). -/
theorem groupStep_replies (c : Platform) (hnone : c.replyOnStorageFail = .noReply) (b0 b1 b2 b3 : Byte) (s : State) :
    Records (fun es => RepliesFollowSuccess es ∧ ((∀ n q m, c.storageStatus n q m = .fail) → txIn es = []))
      s (groupStep c b0 b1 b2 b3 s) := by
  rcases groupStep_trace_cases c b0 b1 b2 b3 s with htrace | ⟨r, htrace⟩ | ⟨k, _, _, _, _, hdispatch⟩
  · exact ⟨[], by rw [htrace, List.append_nil], .of_no_write (by simp), fun _ => rfl⟩
  · exact ⟨_, htrace, .of_no_write (by simp), fun _ => rfl⟩
  · rcases hdispatch with ⟨r, _, htrace⟩ | ⟨q, _, _, htrace⟩ | ⟨q, reply, hreplied, htrace⟩
    · exact ⟨_, htrace.trans (List.append_assoc _ _ _), .of_no_write (by simp), fun _ => rfl⟩
    · exact ⟨_, htrace.trans (List.append_assoc _ _ _), .of_no_write (by simp), fun _ => rfl⟩
    · have hok := hreplied.resolve_right fun ⟨_, hack⟩ => by simp [hnone] at hack
      rw [hok] at htrace
      refine ⟨_, htrace.trans (List.append_assoc _ _ _), ?_, fun hfail => ?_⟩
      · intro j b x hj
        match j with
        | 0 | 1 => simp at hj
        | 2 => exact ⟨1, q, rfl, rfl⟩
        | j + 3 => simp at hj
      · rw [hfail] at hok
        cases hok

/-- Settles O53: along the group steps of the packets. -/
theorem noReplyWithoutAStorageSuccess : Obligations.NoReplyWithoutAStorageSuccess := by
  intro c packets s hnone
  obtain ⟨es, htrace, hfollow, hsilent⟩ := rxPackets_records c
    (P := fun es => RepliesFollowSuccess es ∧ ((∀ n q m, c.storageStatus n q m = .fail) → txIn es = []))
    ⟨.of_no_write (by simp), fun _ => rfl⟩
    (fun es fs ⟨hes, hes'⟩ ⟨hfs, hfs'⟩ =>
      ⟨hes.append hfs, fun hfail => by rw [txIn_append, hes' hfail, hfs' hfail, List.append_nil]⟩)
    (groupStep_replies c hnone) packets s
  refine ⟨⟨es, htrace, hfollow⟩, fun hfail => ?_⟩
  rw [htrace, txIn_append, hsilent hfail, List.append_nil]

end Sys2Proof.Machine

namespace Sys2Proof.Machine

/-! Stale bytes: two runs from buffers that agree below the cursor (10_state.md rule R25, 42_command_validator.md rule
R146). -/

/-- `t` is `s` with other bytes at or beyond the cursor. -/
def StaleEq (s t : State) : Prop :=
  ∃ buf : Vector Byte 64, t = { s with rxBuf := buf } ∧
    buf.toList.take s.cursor = s.rxBuf.toList.take s.cursor

/-- An idle block has only stale bytes. -/
theorem StaleEq.of_idle {s : State} (hidle : s.cursor = 0) (buf : Vector Byte 64) :
    StaleEq s { s with rxBuf := buf } :=
  ⟨buf, rfl, by rw [hidle, List.take_zero, List.take_zero]⟩

/-- An append to buffers that agree below the cursor makes them agree below the new one. -/
theorem take_writeRx_congr {buf buf' : Vector Byte 64} {k : Nat} (vs : List Byte)
    (heq : buf'.toList.take k = buf.toList.take k) (hfit : k + vs.length ≤ 64) :
    (writeRx buf' k vs).toList.take (k + vs.length) = (writeRx buf k vs).toList.take (k + vs.length) := by
  rw [take_writeRx vs buf' k hfit, take_writeRx vs buf k hfit, heq]

/-- `Finalize` reads of the buffer only the message. -/
theorem finalize_withBuffer (c : Platform) (s : State) (buf : Vector Byte 64)
    (heq : buf.toList.take s.cursor = s.rxBuf.toList.take s.cursor) :
    finalize c { s with rxBuf := buf } = { finalize c s with rxBuf := buf } := by
  obtain ⟨_, hcursor, hpkt, hpos, hpending, _⟩ := finalize_block c s
  refine (finalize_withBlock c s { s with rxBuf := buf } heq).trans ?_
  simp only [State.withBlock, resetCursor, hcursor, hpkt, hpos, hpending]

theorem groupStep_staleEq (c : Platform) (b0 b1 b2 b3 : Byte) {s t : State} (h : StaleEq s t) :
    StaleEq (groupStep c b0 b1 b2 b3 s) (groupStep c b0 b1 b2 b3 t) := by
  obtain ⟨buf, rfl, heq⟩ := h
  rcases inverseShape_cases (cinOf b0) with hcont | ⟨k, _, _, hterminal⟩ | hnone
  · rw [groupStep_of_cont c b1 b2 b3 _ hcont, groupStep_of_cont c b1 b2 b3 _ hcont]
    rcases Nat.lt_or_ge 64 (s.cursor + 3) with hover | hfit
    · rw [sxcont_of_overflow _ _ _ s hover, sxcont_of_overflow _ _ _ { s with rxBuf := buf } hover]
      exact StaleEq.of_idle rfl buf
    · rw [sxcont_of_fits _ _ _ s hfit, sxcont_of_fits _ _ _ { s with rxBuf := buf } hfit]
      exact ⟨_, rfl, take_writeRx_congr [b1, b2, b3] heq hfit⟩
  · rw [groupStep_of_terminal c b1 b2 b3 _ hterminal, groupStep_of_terminal c b1 b2 b3 _ hterminal]
    generalize [b1, b2, b3].take k = vs
    rcases Nat.lt_or_ge 64 (s.cursor + vs.length) with hover | hfit
    · rw [terminalGroup_of_overflow _ _ _ s hover, terminalGroup_of_overflow _ _ _ { s with rxBuf := buf } hover]
      exact StaleEq.of_idle rfl buf
    · rw [terminalGroup_of_fits _ _ _ s hfit, terminalGroup_of_fits _ _ _ { s with rxBuf := buf } hfit]
      have hfinal := finalize_withBuffer c
        { s with rxBuf := writeRx s.rxBuf s.cursor vs, cursor := s.cursor + vs.length } (writeRx buf s.cursor vs)
        (take_writeRx_congr vs heq hfit)
      exact ⟨writeRx buf s.cursor vs, congrArg (advance _) hfinal, rfl⟩
  · rw [groupStep_of_nonsx c b1 b2 b3 _ hnone, groupStep_of_nonsx c b1 b2 b3 _ hnone, nonsx_eq, nonsx_eq]
    exact StaleEq.of_idle rfl buf

theorem scan_staleEq (c : Platform) (fuel : Nat) {s t : State} (h : StaleEq s t) :
    StaleEq (scan c fuel s) (scan c fuel t) := by
  induction fuel generalizing s t with
  | zero => exact h
  | succ fuel ih =>
    have hscan : t.pkt = s.pkt ∧ t.pos = s.pos := by
      obtain ⟨buf, rfl, _⟩ := h
      exact ⟨rfl, rfl⟩
    rcases Nat.lt_or_ge s.pkt.length (s.pos + 4) with hshort | hbusy
    · rwa [scan_short c _ hshort, scan_short c _ (by rwa [hscan.1, hscan.2])]
    · obtain ⟨b0, b1, b2, b3, rest, hdrop⟩ := exists_group_at_pos hbusy
      rw [scan_group c fuel hdrop, scan_group c fuel (by rw [hscan.1, hscan.2]; exact hdrop)]
      exact ih (groupStep_staleEq c b0 b1 b2 b3 h)

theorem rxPacket_staleEq (c : Platform) (pkt : List Byte) {s t : State} (h : StaleEq s t) :
    StaleEq (rxPacket c pkt s) (rxPacket c pkt t) := by
  have hbegin {p : List Byte} {u v : State} (h : StaleEq u v) : StaleEq (beginPacket p u) (beginPacket p v) := by
    obtain ⟨buf, rfl, heq⟩ := h
    exact ⟨buf, rfl, heq⟩
  exact hbegin (scan_staleEq c _ (hbegin h))

/-- Settles O45: the relation is kept along the packet, and says all of this. -/
theorem staleBytesNeverMatter : Obligations.StaleBytesNeverMatter := by
  intro c pkt s buf heq t t'
  obtain ⟨buf', ht', heq'⟩ : StaleEq t t' := rxPacket_staleEq c pkt ⟨buf, rfl, heq⟩
  rw [ht']
  exact ⟨heq', rfl, heq', rfl, rfl, rfl, rfl, rfl, rfl⟩

end Sys2Proof.Machine

namespace Sys2Proof.Machine

/-! Reassembly of an encoded message, for every split into packets (40_sysex_codec.md rule R101). -/

/-- The state with these bytes appended to the message in progress. -/
def State.appended (s : State) (vs : List Byte) : State :=
  { s with rxBuf := writeRx s.rxBuf s.cursor vs, cursor := s.cursor + vs.length }

theorem writeRx_append (vs ws : List Byte) (buf : Vector Byte 64) (k : Nat) :
    writeRx buf k (vs ++ ws) = writeRx (writeRx buf k vs) (k + vs.length) ws := by
  induction vs generalizing buf k with
  | nil => rfl
  | cons v vs ih =>
    rw [List.cons_append, writeRx, ih, List.length_cons, Nat.add_assoc, Nat.add_comm 1]
    rfl

theorem State.appended_appended (s : State) (vs ws : List Byte) :
    (s.appended vs).appended ws = s.appended (vs ++ ws) := by
  simp only [State.appended, writeRx_append, List.length_append, Nat.add_assoc]

/-- `Finalize` and the end of the packet do not depend on where the scan stood. -/
theorem beginPacket_finalize_withScan (c : Platform) (s : State) (pkt : List Byte) (pos : Nat) :
    beginPacket [] (finalize c (s.withScan pkt pos s.pending)) = beginPacket [] (finalize c s) := by
  obtain ⟨_, _, _, _, hpending, _⟩ := finalize_block c s
  rw [finalize_withScan, ← hpending]
  rfl

/-- A packet of one group is the group step. -/
theorem rxPacket_single (c : Platform) (b0 b1 b2 b3 : Byte) (s : State) :
    rxPacket c [b0, b1, b2, b3] s = beginPacket [] (groupStep c b0 b1 b2 b3 s) := by
  obtain ⟨hadv, _⟩ := groupAdvance_bounds c.toParams (cinOf b0)
  rw [rxPacket_group]
  refine rxPacket_short c ?_ _
  split
  · decide
  · rw [List.length_drop]
    simp only [List.length_cons, List.length_nil]
    omega

/-- Empty packets do nothing to a state at rest. -/
theorem rxPackets_of_flatten_nil (c : Platform) {packets : List (List Byte)} (hnil : packets.flatten = []) (s : State) :
    rxPackets c packets (beginPacket [] s) = beginPacket [] s := by
  induction packets with
  | nil => rfl
  | cons p ps ih =>
    rw [List.flatten_cons, List.append_eq_nil_iff] at hnil
    obtain ⟨rfl, hps⟩ := hnil
    exact ih hps

/-- What `Encode` emits of a message that is not empty: one terminal group that carries it whole, or SXCONT and the
groups of the rest (40_sysex_codec.md rule R91). -/
theorem encodeGroups_cases (cable : Nibble) {msg : List Byte} (hmsg : msg ≠ []) :
    (∃ b0 b1 b2 b3, encodeGroups cable msg = [b0, b1, b2, b3] ∧
      inverseShape (cinOf b0) = some (msg.length, true) ∧ [b1, b2, b3].take msg.length = msg) ∨
    (∃ b0 a b d rest, rest ≠ [] ∧ msg = a :: b :: d :: rest ∧
      encodeGroups cable msg = b0 :: a :: b :: d :: encodeGroups cable rest ∧
      inverseShape (cinOf b0) = some (3, false)) := by
  match msg, hmsg with
  | [a], _ => exact .inl ⟨_, _, _, _, encodeGroups_one cable a,
      by rw [cinOf_headerByte, inverseShape_cinEnd1]; rfl, rfl⟩
  | [a, b], _ => exact .inl ⟨_, _, _, _, encodeGroups_two cable a b,
      by rw [cinOf_headerByte, inverseShape_cinEnd2]; rfl, rfl⟩
  | [a, b, d], _ => exact .inl ⟨_, _, _, _, encodeGroups_three cable a b d,
      by rw [cinOf_headerByte, inverseShape_cinEnd3]; rfl, rfl⟩
  | a :: b :: d :: e :: rest, _ =>
    exact .inr ⟨_, a, b, d, e :: rest, List.cons_ne_nil _ _, rfl,
      encodeGroups_of_rest_ne_nil cable a b d (List.cons_ne_nil _ _),
      by rw [cinOf_headerByte, inverseShape_cinCont]⟩

theorem encodeGroups_ne_nil (cable : Nibble) {msg : List Byte} (hmsg : msg ≠ []) : encodeGroups cable msg ≠ [] := by
  rcases encodeGroups_cases cable hmsg with ⟨_, _, _, _, h, _⟩ | ⟨_, _, _, _, _, _, _, h, _⟩
  · rw [h]
    exact List.cons_ne_nil _ _
  · rw [h]
    exact List.cons_ne_nil _ _

/-- The groups of a message that fits behind the one in progress, in any packets cut between groups, are one append of
the message and one finalize. -/
theorem rxPackets_encodeGroups (c : Platform) (cable : Nibble) (packets : List (List Byte)) (msg : List Byte)
    (s : State) (hmsg : msg ≠ []) (hfit : s.cursor + msg.length ≤ 64) (hflatten : packets.flatten = encodeGroups cable msg)
    (hmod : ∀ p ∈ packets, p.length % 4 = 0) :
    rxPackets c packets s = beginPacket [] (finalize c (s.appended msg)) := by
  induction packets generalizing msg s with
  | nil => exact absurd hflatten.symm (encodeGroups_ne_nil cable hmsg)
  | cons p ps ihPackets =>
    have hmodPs : ∀ p ∈ ps, p.length % 4 = 0 := fun q hq => hmod q (List.mem_cons_of_mem _ hq)
    have hmodP : p.length % 4 = 0 := hmod p List.mem_cons_self
    clear hmod
    rw [List.flatten_cons] at hflatten
    induction p using groups_induction generalizing msg s with
    | short p hshort =>
      obtain rfl := eq_nil_of_short_of_mod hshort hmodP
      rw [rxPackets, rxPacket_nil, ihPackets msg (beginPacket [] s) hmsg hfit hflatten hmodPs]
      exact beginPacket_finalize_withScan c (s.appended msg) [] 0
    | group b0 b1 b2 b3 rest ihGroups =>
      rcases encodeGroups_cases cable hmsg with ⟨h0, h1, h2, h3, hencode, hshape, htake⟩ |
        ⟨h0, a, b, d, tail, htail, rfl, hencode, hshape⟩
      · rw [hencode] at hflatten
        simp only [List.cons_append, List.cons.injEq, List.append_eq_nil_iff] at hflatten
        obtain ⟨rfl, rfl, rfl, rfl, rfl, hps⟩ := hflatten
        rw [rxPackets, rxPacket_single, rxPackets_of_flatten_nil c hps, groupStep_of_terminal c _ _ _ s hshape, htake,
          terminalGroup_of_fits c msg _ s hfit]
        rfl
      · rw [hencode] at hflatten
        simp only [List.cons_append, List.cons.injEq] at hflatten
        obtain ⟨rfl, rfl, rfl, rfl, hrest⟩ := hflatten
        simp only [List.length_cons] at hfit hmodP
        rw [rxPackets, rxPacket_cont c hshape, ← rxPackets, sxcont_of_fits _ _ _ s (by omega),
          ihGroups tail _ htail (by simp only; omega) hrest (by omega)]
        have happended : s.appended (b1 :: b2 :: b3 :: tail) = (s.appended [b1, b2, b3]).appended tail :=
          (State.appended_appended s [b1, b2, b3] tail).symm
        rw [happended]
        exact beginPacket_finalize_withScan c ((s.appended [b1, b2, b3]).appended tail) s.pkt (s.pos + 4)

/-- From an idle block the effect is that of the dispatch of the message, and the block is idle again. -/
theorem rxPackets_encodeGroups_idle (c : Platform) (cable : Nibble) (packets : List (List Byte)) (msg : List Byte)
    (s : State) (hpos : 1 ≤ msg.length) (hcap : msg.length ≤ 64) (hidle : s.cursor = 0)
    (hflatten : packets.flatten = encodeGroups cable msg) (hmod : ∀ p ∈ packets, p.length % 4 = 0) :
    rxPackets c packets s =
      (dispatch c msg s).withBlock (beginPacket [] (resetCursor (s.appended msg))) := by
  have hfit : s.cursor + msg.length ≤ 64 := by omega
  have hmessage : (s.appended msg).message = msg := by
    rw [State.appended, message_append s msg hfit, State.message, hidle, List.take_zero, List.nil_append]
  have hblock : s.appended msg = s.withBlock (s.appended msg) := rfl
  rw [rxPackets_encodeGroups c cable packets msg s (List.ne_nil_of_length_pos hpos) hfit hflatten hmod, finalize,
    hmessage, hblock, dispatch_withBlock]
  rfl

/-- Settles O46: the packets are the dispatch of the message, which dispatches it once. -/
theorem roundTripForEverySplitIntoPackets : Obligations.RoundTripForEverySplitIntoPackets := by
  intro c cable msg packets s hpos hcap hidle hflatten hmod t
  have ht : t = (dispatch c msg s).withBlock (beginPacket [] (resetCursor (s.appended msg))) :=
    rxPackets_encodeGroups_idle c cable packets msg s hpos hcap hidle hflatten hmod
  have hbuffer : (writeRx s.rxBuf s.cursor msg).toList.take msg.length = msg := by
    have h := take_writeRx msg s.rxBuf 0 (by omega)
    rwa [Nat.zero_add, List.take_zero, List.nil_append, ← hidle] at h
  rw [ht]
  exact ⟨rfl, hbuffer, rfl, rfl, rfl, (dispatch_oneCallOneReply c msg s).dispatch_events⟩

/-! Requests on a healthy store (20_memory.md rule R53). -/

/-- A well-formed level-2 operation's message has 1 to 64 bytes (30_encoding.md rule R67). -/
theorem encode_toInstr_length (c : Params) (m : Message) (hwf : m.toInstr.wellFormed c = true) :
    1 ≤ (encode c m.toInstr).length ∧ (encode c m.toInstr).length ≤ 64 := by
  cases m with
  | dumpPage ps =>
    rw [Message.toInstr, Laws.EncodedLength.dumpPage ps c]
    exact ⟨Nat.le_add_left _ _, of_decide_eq_true hwf⟩
  | eraseAll ps =>
    rw [Message.toInstr, Laws.EncodedLength.eraseAll ps c]
    exact ⟨Nat.le_add_left _ _, of_decide_eq_true hwf⟩
  | writePage ps =>
    rw [Message.toInstr, Laws.EncodedLength.writePage ps c]
    exact ⟨Nat.le_add_left _ _, of_decide_eq_true hwf⟩
  | unknown body =>
    simp only [Message.toInstr, Instr.wellFormed, Bool.and_eq_true, decide_eq_true_eq] at hwf
    rw [Message.toInstr, Laws.EncodedLength.unknown body c]
    exact ⟨Nat.le_add_left _ _, hwf.1⟩
  | invalidMsg m =>
    simp only [Message.toInstr, Instr.wellFormed, Bool.and_eq_true, decide_eq_true_eq] at hwf
    exact hwf.1

/-- `Encode` emits whole groups (40_sysex_codec.md rule R90). -/
theorem encodeGroups_length_mod (cable : Nibble) (msg : List Byte) : (encodeGroups cable msg).length % 4 = 0 := by
  fun_induction encodeGroups cable msg with
  | case1 => rfl
  | case2 | case3 | case4 => simp
  | case5 a b d e rest ih =>
    simp only [List.length_cons] at ih ⊢
    omega

/-- The packet of a well-formed level-2 operation, delivered to an idle block, runs the operation. -/
theorem rxPacket_request (c : Platform) (hadm : c.toParams.Admitted) (cable : Nibble) (m : Message)
    (hwf : m.toInstr.wellFormed c.toParams = true) (s : State) (hidle : s.cursor = 0) :
    let t := rxPacket c (encodeGroups cable (encode c.toParams m.toInstr)) s
    ∃ u : State, u.store = s.store ∧ u.trace = s.trace ++ [.dispatch (encode c.toParams m.toInstr)] ∧
      t.cursor = 0 ∧ t.store = (runMessage c m u).store ∧ t.trace = (runMessage c m u).trace := by
  intro t
  obtain ⟨hpos, hcap⟩ := encode_toInstr_length c.toParams m hwf
  have ht : t = _ := rxPackets_encodeGroups_idle c cable [encodeGroups cable (encode c.toParams m.toInstr)] _ s hpos
    hcap hidle List.flatten_singleton (fun p hp => by rw [List.mem_singleton.mp hp, encodeGroups_length_mod])
  rw [ht, dispatch_eq_runMessage, decodeMessage_encode_toInstr c.toParams hadm m hwf]
  exact ⟨{ s with trace := s.trace ++ [.dispatch (encode c.toParams m.toInstr)] }, rfl, rfl, rfl, rfl, rfl⟩

/-- Two states differ in these transactions and these outbound writes. -/
def Launched (s t : State) (requests : List StorageRequest) (writes : List (List Byte)) : Prop :=
  storageIn t.trace = storageIn s.trace ++ requests ∧ txIn t.trace = txIn s.trace ++ writes

theorem Launched.of_trace {s t : State} {es : List Event} (h : t.trace = s.trace ++ es) :
    Launched s t (storageIn es) (txIn es) := by
  rw [Launched, h, storageIn_append, txIn_append]
  exact ⟨rfl, rfl⟩

theorem Launched.trans {s t u : State} {q q' : List StorageRequest} {w w' : List (List Byte)}
    (h : Launched s t q w) (h' : Launched t u q' w') : Launched s u (q ++ q') (w ++ w') := by
  obtain ⟨hq, hw⟩ := h
  obtain ⟨hq', hw'⟩ := h'
  exact ⟨by rw [hq', hq, List.append_assoc], by rw [hw', hw, List.append_assoc]⟩

/-- An acknowledged request on a healthy store: its transaction and its reply. -/
theorem Acknowledged.launched {c : Platform} {q : StorageRequest} {reply : List Byte} {s u v t : State} {m : List Byte}
    (hhealthy : Healthy c) (h : Acknowledged c q reply u v) (hu : u.trace = s.trace ++ [.dispatch m])
    (ht : t.trace = v.trace) : Launched s t [q] [encodeGroups c.txCable reply] := by
  obtain ⟨_, htrace, _⟩ := h
  rw [hhealthy, if_pos (.inl rfl), hu] at htrace
  exact Launched.of_trace ((ht.trans htrace).trans (List.append_assoc _ _ _))

/-- The packet of a dump request: one read, and the reply with the bytes that stand at the page. -/
theorem dumpRequest_launched (c : Platform) (hhealthy : Healthy c) (hadm : c.toParams.Admitted) (cable : Nibble)
    (page : Byte) (hpage : page.toNat < 64) (s : State) (hidle : s.cursor = 0) (data : Page)
    (hdata : ∀ i, ∀ hi : i < 16, s.storeByte c ((pageAddress page).toNat + i) = data[i]) :
    Launched s (rxPacket c (encodeGroups cable (encode c.toParams (.dumpPage [page]))) s)
      [.read (pageAddress page)] [encodeGroups c.txCable (dumpReply c.toParams page data)] := by
  obtain ⟨u, hstore, hu, _, _, ht⟩ := rxPacket_request c hadm cable (.dumpPage [page]) rfl s hidle
  obtain ⟨_, _, htrace, _⟩ := dumpPage_cons_effect c page [] u
  have hread (n : Nat) : readPage c n (pageAddress page) u.store = data := by
    rw [readPage_inStore c n _ _ ((inStore_pageAddress_iff page).mpr hpage), hstore]
    apply Vector.ext
    intro i hi
    rw [Vector.getElem_ofFn]
    exact hdata i hi
  rw [hhealthy, hu] at htrace
  simp only [hread] at htrace
  exact Launched.of_trace ((ht.trans htrace).trans (List.append_assoc _ _ _))

/-- The packet of a write request: one write and its reply, and the data at the page. -/
theorem writeRequest_launched (c : Platform) (hhealthy : Healthy c) (hadm : c.toParams.Admitted) (cable : Nibble)
    (page : Byte) (hpage : page.toNat < 64) (data : Page) (s : State) (hidle : s.cursor = 0)
    (hwf : Memory.wf c.storeInitial s.store) :
    let t := rxPacket c (encodeGroups cable (encode c.toParams (.writePage (page :: splitPage data)))) s
    t.cursor = 0 ∧
      Launched s t [.write (pageAddress page) data] [encodeGroups c.txCable (writeReply c.toParams)] ∧
      ∀ i, ∀ hi : i < 16, t.storeByte c ((pageAddress page).toNat + i) = data[i] := by
  intro t
  have hlength : 32 ≤ (splitPage data).length := Nat.le_of_eq (Laws.EncodedLength.splitPage_length data).symm
  have hjoin : joinPage (splitPage data) = data := by
    simpa only [List.append_nil] using joinPage_splitPage_append data []
  have hwellFormed : (Message.writePage (page :: splitPage data)).toInstr.wellFormed c.toParams = true := by
    simp [Message.toInstr, Instr.wellFormed, Laws.EncodedLength.splitPage_length]
  obtain ⟨u, hstore, hu, hcursor, htstore, ht⟩ := rxPacket_request c hadm cable _ hwellFormed s hidle
  have hack := writePage_cons_acknowledged c page (splitPage data) u hlength
  have hwritten := writePage_cons_store c page (splitPage data) u hlength
  rw [hjoin] at hack hwritten
  refine ⟨hcursor, hack.launched hhealthy hu ht, fun i hi => ?_⟩
  rw [hhealthy, hstore] at hwritten
  rw [State.storeByte, show t.store = _ from htstore.trans hwritten]
  exact read_storeAfter_write_ok c _ _ data _ ((inStore_pageAddress_iff page).mpr hpage) hwf i hi

/-- The packet of an erase request: one erase and its reply, and the pattern in every byte of the store. -/
theorem eraseRequest_launched (c : Platform) (hhealthy : Healthy c) (hadm : c.toParams.Admitted) (cable : Nibble)
    (s : State) (hidle : s.cursor = 0) :
    let t := rxPacket c (encodeGroups cable (encode c.toParams (.eraseAll [Config.eraseMagic0, Config.eraseMagic1]))) s
    t.cursor = 0 ∧ Launched s t [.eraseAll] [encodeGroups c.txCable (eraseReply c.toParams)] ∧
      ∀ a < 1024, t.storeByte c a = c.erasePattern := by
  intro t
  obtain ⟨u, _, hu, hcursor, htstore, ht⟩ :=
    rxPacket_request c hadm cable (.eraseAll [Config.eraseMagic0, Config.eraseMagic1]) rfl s hidle
  obtain ⟨_, heffect⟩ := eraseAllErasesTheStoreAndReplies [] u
  obtain ⟨hack, herased, _⟩ := heffect c
  refine ⟨hcursor, hack.launched hhealthy hu ht, fun a ha => ?_⟩
  rw [State.storeByte, show t.store = _ from htstore]
  exact herased (hhealthy _ _ _) a ha

/-- Settles O54: the write's packet puts the data at the page, and the dump's replies with what stands there. -/
theorem aDumpReturnsWhatWasWritten : Obligations.ADumpReturnsWhatWasWritten := by
  intro c page data s hhealthy hadm hpage hwf hidle
  obtain ⟨hcursor, hlaunched, hdata⟩ := writeRequest_launched c hhealthy hadm 0 page hpage data s hidle hwf
  exact hlaunched.trans (dumpRequest_launched c hhealthy hadm 0 page hpage _ hcursor data hdata)

/-- Settles O55: the erase's packet puts the pattern everywhere, and the dump's replies with what stands at the page. -/
theorem aDumpAfterAnEraseIsThePattern : Obligations.ADumpAfterAnEraseIsThePattern := by
  intro c page s hhealthy hadm hpage hidle
  obtain ⟨hcursor, hlaunched, herased⟩ := eraseRequest_launched c hhealthy hadm 0 s hidle
  refine hlaunched.trans (dumpRequest_launched c hhealthy hadm 0 page hpage _ hcursor _ fun i hi => ?_)
  rw [Vector.getElem_replicate]
  exact herased _ (by rw [pageAddress_toNat]; omega)

end Sys2Proof.Machine

namespace Sys2Proof.Machine

/-! The steps of the machine run every pending packet to completion (00_scope.md rule R10, 70_reset_and_hazards.md rule
R202). -/

/-- Some number of steps takes `s` to `t`. -/
def Reaches (s t : State) : Prop := ∃ k, Sys2Proof.core.run k s = .next t

theorem Reaches.refl (s : State) : Reaches s s := ⟨0, rfl⟩

theorem Reaches.of_step {s u t : State} (hstep : step s = .next u) (h : Reaches u t) : Reaches s t := by
  obtain ⟨k, hk⟩ := h
  refine ⟨k + 1, ?_⟩
  have hcore : Sys2Proof.core.step s = .next u := hstep
  simp only [Host.Core.run, hcore]
  exact hk

/-- The steps make the scan, one group each. -/
theorem Reaches.of_scan (fuel : Nat) {s t : State} (h : Reaches (scan Config.platform fuel s) t) : Reaches s t := by
  induction fuel generalizing s with
  | zero => exact h
  | succ fuel ih =>
    rcases Nat.lt_or_ge s.pkt.length (s.pos + 4) with hshort | hbusy
    · rwa [scan_short _ _ hshort] at h
    · obtain ⟨b0, b1, b2, b3, rest, hdrop⟩ := exists_group_at_pos hbusy
      rw [scan_group _ fuel hdrop] at h
      exact .of_step (step_of_group hdrop) (ih h)

/-- With fuel for the bytes left the scan comes to its end (41_reassembler.md rule R111). -/
theorem scan_ends (c : Platform) (fuel : Nat) (s : State) (hfuel : (s.pkt.drop s.pos).length ≤ fuel) :
    (scan c fuel s).pkt.length < (scan c fuel s).pos + 4 := by
  induction fuel generalizing s with
  | zero =>
    rw [List.length_drop] at hfuel
    rw [scan]
    omega
  | succ fuel ih =>
    rcases Nat.lt_or_ge s.pkt.length (s.pos + 4) with hshort | hbusy
    · rwa [scan_short c _ hshort]
    · obtain ⟨b0, b1, b2, b3, rest, hdrop⟩ := exists_group_at_pos hbusy
      have hless := groupStep_drop_length c hdrop
      rw [scan_group c fuel hdrop]
      exact ih _ (by omega)

/-- The whole-packet step does not read the packets to come. -/
theorem rxPacket_withScan (c : Platform) (p pkt : List Byte) (pos : Nat) (pending : List (List Byte)) (s : State) :
    rxPacket c p (s.withScan pkt pos pending) = (rxPacket c p s).withScan [] 0 pending := by
  obtain ⟨pos', h⟩ := scan_withScan c p.length p.length (beginPacket p s) p 0 pending rfl (Nat.le_refl _)
    (Nat.le_refl _)
  exact congrArg (beginPacket []) h

/-- A run does not read the scan it starts from, nor the packets to come. -/
theorem rxPackets_withScan (c : Platform) (packets : List (List Byte)) (pkt : List Byte) (pos : Nat)
    (pending : List (List Byte)) (s : State) :
    (rxPackets c packets (s.withScan pkt pos pending)).withScan [] 0 [] = (rxPackets c packets s).withScan [] 0 [] := by
  induction packets generalizing s pkt pos with
  | nil => rfl
  | cons p ps ih =>
    rw [rxPackets, rxPackets, rxPacket_withScan]
    exact ih [] 0 _

/-- From the end of a scan the steps deliver what is pending, packet after packet, and come to rest. -/
theorem reaches_rxPackets (packets : List (List Byte)) (s : State) (hended : s.pkt.length < s.pos + 4)
    (hpending : s.pending = packets) : Reaches s ((rxPackets Config.platform packets s).withScan [] 0 []) := by
  induction packets generalizing s with
  | nil =>
    have hrest : endScan s = s.withScan [] 0 [] := by
      rw [endScan_of_none_pending hpending, State.withScan, ← hpending]
    exact .of_step (step_of_short hended) (hrest ▸ .refl _)
  | cons p ps ih =>
    have hdelivered : endScan s = s.withScan p 0 ps := endScan_of_pending hpending
    let scanned := scan Config.platform p.length (s.withScan p 0 ps)
    have hscanned : Reaches scanned ((rxPackets Config.platform ps scanned).withScan [] 0 []) :=
      ih scanned (scan_ends _ _ _ (Nat.le_refl _)) (scan_pending _ _ _)
    have hpacket : rxPacket Config.platform p (s.withScan p 0 ps) = scanned.withScan [] 0 ps :=
      congrArg (State.withScan scanned [] 0) (scan_pending Config.platform p.length (s.withScan p 0 ps))
    have hsame : (rxPackets Config.platform ps scanned).withScan [] 0 [] =
        (rxPackets Config.platform (p :: ps) s).withScan [] 0 [] := by
      rw [← rxPackets_withScan _ (p :: ps) p 0 ps s, rxPackets, hpacket, rxPackets_withScan]
    rw [← hsame]
    exact .of_step (step_of_short hended) (hdelivered ▸ .of_scan p.length hscanned)

/-- A run of packets from rest ends at rest. -/
theorem rxPackets_atRest (c : Platform) (packets : List (List Byte)) (s : State) (hrest : s.AtRest) :
    (rxPackets c packets s).AtRest := by
  induction packets generalizing s with
  | nil => exact hrest
  | cons p ps ih => exact ih _ ⟨rfl, rfl⟩

/-- Settles O56: at rest the scan has ended, and a run that began there ends there. -/
theorem stepsRunEveryPacketToCompletion : Obligations.StepsRunEveryPacketToCompletion := by
  intro s hrest
  obtain ⟨hpkt, hpos⟩ := rxPackets_atRest Config.platform s.pending s hrest
  have hreaches := reaches_rxPackets s.pending s (by rw [hrest.1, hrest.2]; decide) rfl
  rw [State.withScan] at hreaches
  rwa [← hpkt, ← hpos] at hreaches

end Sys2Proof.Machine
